-- ==== Sys2Proof/Word.lean ====
section
/-! DEFINITION. The word and byte types (spec 00_scope.md R7, R11): every register value, address, pc value and extended
immediate is a 16-bit bit vector. `u(v)` is `BitVec.toNat`, `s(v)` is `BitVec.toInt` (two's complement, R11); `+16`, `-16`
are `BitVec` addition and subtraction (R12). -/

namespace Sys2Proof

/-- A 16-bit value (R7 XLEN, ALEN, ILEN; R11). -/
abbrev Word := BitVec 16

/-- One byte of memory (R32). -/
abbrev Byte := BitVec 8

end Sys2Proof
end

