-- ==== Sys2Proof/Config.lean ====
section
/-! DEFINITION. What an implementation fixes. The spec's open parameters (R8) that the machine's behaviour depends on are
plain data in `Machine.Platform`, a field of the state, so that every statement over all states holds for every value of
them; here stand the fixed sizes (R7) and the one parameter no step reads, PALETTE (D23). -/

namespace Sys2Proof

/-- Bytes of memory, MEM_SIZE (R7, R32). -/
def Config.memSize : Nat := 65536

/-- A colour of the display. The spec leaves the colour type unspecified (R8 PALETTE): a code with no meaning fixed here. -/
structure Config.Colour where
  code : Nat
  deriving DecidableEq, Repr, Inhabited

/-- PALETTE: the 16 fixed colours, open in the spec (R8, R127, D23). A free value: it has no body. UNVERIFIED, safe
(log 21). The engine stores only palette indices. -/
opaque Config.palette : BitVec 4 → Config.Colour

end Sys2Proof
end

