-- ==== Sys2Proof/Syntax.lean ====
section
/-! DEFINITION. The instructions (spec 00_scope.md R2), their formats (30_encoding.md R63), the kinds of immediate (R62) and
the decoded-instruction record (R17, R65). -/

namespace Sys2Proof

/-- A register number, r0 to r7 (R20): the 3-bit index of an instruction field. -/
abbrev Reg := Fin 8

/-- The 32 mnemonics in the order of R2. -/
inductive Mnemonic where
  | add | sub | and | or | xor | sll | srl | sra | slt | sltu
  | addi | andi | ori | xori | slli | srli | srai | slti | sltiu
  | lb | lbu | lw | sb | sw
  | jmp | jmpr
  | beq | bne | blt | bge | bltu | bgeu
  deriving DecidableEq, Repr

/-- The four formats (R56). -/
inductive Format where
  | R | I | J | B
  deriving DecidableEq, Repr

/-- How an instruction's immediate field becomes its 16-bit immediate (R62). -/
inductive ImmKind where
  /-- no immediate: R format, the decoded immediate is 0 -/
  | none
  /-- `zext_5(word[4:0])`, values 0..31 -/
  | zext5
  /-- `sext_5(word[4:0])`, values -16..15 -/
  | sext5
  /-- `sext_8(word[7:0])`, values -128..127 -/
  | sext8
  deriving DecidableEq, Repr

/-- FORMAT(m) of R63. The formats of loads, stores, Jmpr and Jmp are the spec's own decision D3 (DESIGN CHOICE of the spec,
log 3). -/
def Mnemonic.format : Mnemonic → Format
  | .add | .sub | .and | .or | .xor | .sll | .srl | .sra | .slt | .sltu => .R
  | .addi | .andi | .ori | .xori | .slli | .srli | .srai | .slti | .sltiu => .I
  | .lb | .lbu | .lw | .sb | .sw | .jmpr => .I
  | .jmp => .J
  | .beq | .bne | .blt | .bge | .bltu | .bgeu => .B

/-- The immediate's extension, per instruction (R62). -/
def Mnemonic.immKind : Mnemonic → ImmKind
  | .add | .sub | .and | .or | .xor | .sll | .srl | .sra | .slt | .sltu => .none
  | .andi | .ori | .xori | .slli | .srli | .srai | .sltiu => .zext5
  | .addi | .slti | .lb | .lbu | .lw | .sb | .sw | .jmpr => .sext5
  | .jmp => .sext8
  | .beq | .bne | .blt | .bge | .bltu | .bgeu => .sext5

/-- The decoded-instruction record {mnemonic, format, rd, rs1, rs2, imm} (R17, R65). -/
structure Decoded where
  mnemonic : Mnemonic
  format   : Format
  rd       : Reg
  rs1      : Reg
  rs2      : Reg
  imm      : Word
  deriving DecidableEq, Repr

/-- An instruction with the fields its own rule names (R66). `imm` is the immediate after extension to 16 bits (R17). For
`sb` and `sw` the first register, the rd field [10:8], is the data SOURCE and the second the base (R102, R103). -/
inductive Instr where
  -- R format: rd rs1 rs2 (R78 to R87)
  | add  (rd rs1 rs2 : Reg)
  | sub  (rd rs1 rs2 : Reg)
  | and  (rd rs1 rs2 : Reg)
  | or   (rd rs1 rs2 : Reg)
  | xor  (rd rs1 rs2 : Reg)
  | sll  (rd rs1 rs2 : Reg)
  | srl  (rd rs1 rs2 : Reg)
  | sra  (rd rs1 rs2 : Reg)
  | slt  (rd rs1 rs2 : Reg)
  | sltu (rd rs1 rs2 : Reg)
  -- I format, register-immediate: rd rs1 imm (R88 to R96)
  | addi  (rd rs1 : Reg) (imm : Word)
  | andi  (rd rs1 : Reg) (imm : Word)
  | ori   (rd rs1 : Reg) (imm : Word)
  | xori  (rd rs1 : Reg) (imm : Word)
  | slli  (rd rs1 : Reg) (imm : Word)
  | srli  (rd rs1 : Reg) (imm : Word)
  | srai  (rd rs1 : Reg) (imm : Word)
  | slti  (rd rs1 : Reg) (imm : Word)
  | sltiu (rd rs1 : Reg) (imm : Word)
  -- I format, loads: rd rs1 imm (R99 to R101); stores: data register, base, imm (R102, R103)
  | lb  (rd rs1 : Reg) (imm : Word)
  | lbu (rd rs1 : Reg) (imm : Word)
  | lw  (rd rs1 : Reg) (imm : Word)
  | sb  (rd rs1 : Reg) (imm : Word)
  | sw  (rd rs1 : Reg) (imm : Word)
  -- jumps: J format rd imm (R105); I format rd rs1 imm (R106)
  | jmp  (rd : Reg) (imm : Word)
  | jmpr (rd rs1 : Reg) (imm : Word)
  -- B format: rs1 rs2 imm (R107 to R112)
  | beq  (rs1 rs2 : Reg) (imm : Word)
  | bne  (rs1 rs2 : Reg) (imm : Word)
  | blt  (rs1 rs2 : Reg) (imm : Word)
  | bge  (rs1 rs2 : Reg) (imm : Word)
  | bltu (rs1 rs2 : Reg) (imm : Word)
  | bgeu (rs1 rs2 : Reg) (imm : Word)
  deriving DecidableEq, Repr

/-- The instruction's record with 0 in every field its format does not have (R58 to R61, R65; the 0s of rd in B format and
imm in R format are the spec's decision D4, log 4). -/
def Instr.toDecoded : Instr → Decoded
  | .add rd rs1 rs2  => ⟨.add, .R, rd, rs1, rs2, 0#16⟩
  | .sub rd rs1 rs2  => ⟨.sub, .R, rd, rs1, rs2, 0#16⟩
  | .and rd rs1 rs2  => ⟨.and, .R, rd, rs1, rs2, 0#16⟩
  | .or rd rs1 rs2   => ⟨.or, .R, rd, rs1, rs2, 0#16⟩
  | .xor rd rs1 rs2  => ⟨.xor, .R, rd, rs1, rs2, 0#16⟩
  | .sll rd rs1 rs2  => ⟨.sll, .R, rd, rs1, rs2, 0#16⟩
  | .srl rd rs1 rs2  => ⟨.srl, .R, rd, rs1, rs2, 0#16⟩
  | .sra rd rs1 rs2  => ⟨.sra, .R, rd, rs1, rs2, 0#16⟩
  | .slt rd rs1 rs2  => ⟨.slt, .R, rd, rs1, rs2, 0#16⟩
  | .sltu rd rs1 rs2 => ⟨.sltu, .R, rd, rs1, rs2, 0#16⟩
  | .addi rd rs1 imm  => ⟨.addi, .I, rd, rs1, 0, imm⟩
  | .andi rd rs1 imm  => ⟨.andi, .I, rd, rs1, 0, imm⟩
  | .ori rd rs1 imm   => ⟨.ori, .I, rd, rs1, 0, imm⟩
  | .xori rd rs1 imm  => ⟨.xori, .I, rd, rs1, 0, imm⟩
  | .slli rd rs1 imm  => ⟨.slli, .I, rd, rs1, 0, imm⟩
  | .srli rd rs1 imm  => ⟨.srli, .I, rd, rs1, 0, imm⟩
  | .srai rd rs1 imm  => ⟨.srai, .I, rd, rs1, 0, imm⟩
  | .slti rd rs1 imm  => ⟨.slti, .I, rd, rs1, 0, imm⟩
  | .sltiu rd rs1 imm => ⟨.sltiu, .I, rd, rs1, 0, imm⟩
  | .lb rd rs1 imm  => ⟨.lb, .I, rd, rs1, 0, imm⟩
  | .lbu rd rs1 imm => ⟨.lbu, .I, rd, rs1, 0, imm⟩
  | .lw rd rs1 imm  => ⟨.lw, .I, rd, rs1, 0, imm⟩
  | .sb rd rs1 imm  => ⟨.sb, .I, rd, rs1, 0, imm⟩
  | .sw rd rs1 imm  => ⟨.sw, .I, rd, rs1, 0, imm⟩
  | .jmp rd imm      => ⟨.jmp, .J, rd, 0, 0, imm⟩
  | .jmpr rd rs1 imm => ⟨.jmpr, .I, rd, rs1, 0, imm⟩
  | .beq rs1 rs2 imm  => ⟨.beq, .B, 0, rs1, rs2, imm⟩
  | .bne rs1 rs2 imm  => ⟨.bne, .B, 0, rs1, rs2, imm⟩
  | .blt rs1 rs2 imm  => ⟨.blt, .B, 0, rs1, rs2, imm⟩
  | .bge rs1 rs2 imm  => ⟨.bge, .B, 0, rs1, rs2, imm⟩
  | .bltu rs1 rs2 imm => ⟨.bltu, .B, 0, rs1, rs2, imm⟩
  | .bgeu rs1 rs2 imm => ⟨.bgeu, .B, 0, rs1, rs2, imm⟩

/-- The instruction's mnemonic. -/
def Instr.mnemonic (i : Instr) : Mnemonic := i.toDecoded.mnemonic

/-- The register an instruction writes, its rd; the stores and the conditional branches write none (R25). -/
def Instr.dest : Instr → Option Reg
  | .add rd _ _ | .sub rd _ _ | .and rd _ _ | .or rd _ _ | .xor rd _ _ => some rd
  | .sll rd _ _ | .srl rd _ _ | .sra rd _ _ | .slt rd _ _ | .sltu rd _ _ => some rd
  | .addi rd _ _ | .andi rd _ _ | .ori rd _ _ | .xori rd _ _ => some rd
  | .slli rd _ _ | .srli rd _ _ | .srai rd _ _ | .slti rd _ _ | .sltiu rd _ _ => some rd
  | .lb rd _ _ | .lbu rd _ _ | .lw rd _ _ => some rd
  | .jmp rd _ => some rd
  | .jmpr rd _ _ => some rd
  | .sb _ _ _ | .sw _ _ _ => none
  | .beq _ _ _ | .bne _ _ _ | .blt _ _ _ | .bge _ _ _ | .bltu _ _ _ | .bgeu _ _ _ => none

/-- The pseudo spelling `Nop` (R73). -/
def Instr.nop : Instr := .add 0 0 0

/-- The pseudo spelling `Mv rd, rs` (R73). -/
def Instr.mv (rd rs : Reg) : Instr := .addi rd rs 0

/-- The pseudo spelling `J #off` (R73). -/
def Instr.j (off : Word) : Instr := .jmp 0 off

/-- The pseudo spelling `Halt`, a jump to itself (R73, R135). -/
def Instr.halt : Instr := .jmp 0 0

end Sys2Proof
end

