-- ==== Sys2Proof/WellFormed.lean ====
section
/-! DEFINITION. Which instructions have an encoding: the immediate ranges an assembler checks (spec 30_encoding.md R74). Register
numbers are in range by their type (R20). -/

namespace Sys2Proof

/-- The values an immediate of each kind may have (R62, R74). -/
def ImmKind.admits : ImmKind → Word → Bool
  | .none, v  => v == 0#16
  | .zext5, v => decide (v.toNat ≤ 31)
  | .sext5, v => decide (-16 ≤ v.toInt ∧ v.toInt ≤ 15)
  | .sext8, v => decide (-128 ≤ v.toInt ∧ v.toInt ≤ 127)

/-- The instruction has an encoding: its immediate is in the range of its kind. "A value outside its range has no encoding (an
assembler refuses it; the hardware never sees it)" (R74). -/
def Instr.wf (i : Instr) : Bool := i.mnemonic.immKind.admits i.toDecoded.imm

end Sys2Proof
end

