-- ==== Sys2Proof/Decode.lean ====
section
/-! DEFINITION. The decoder and the encoder (spec 30_encoding.md): opcode map (R57, R64), field extraction (R56 to R61), immediate
extension (R13, R62), the decoded record and the instruction (R65), `encode` (R70), and the host's reading of a table word. -/

namespace Sys2Proof

/-! ### The opcode map -/

/-- OPCODE_MAP as data: the mnemonic each 5-bit opcode value selects (R8, R57, R64). -/
abbrev OpcodeMap := Vector Mnemonic 32

/-- The mnemonic an opcode value selects, OPCODE_MAP^-1 of R65. -/
def OpcodeMap.mnemonicAt (m : OpcodeMap) (opc : BitVec 5) : Mnemonic := m[opc.toNat]'(opc.isLt)

/-- The opcode value of a mnemonic, OPCODE_MAP(m) of R70: its place in the table. -/
def OpcodeMap.opcodeOf (m : OpcodeMap) (mn : Mnemonic) : BitVec 5 := BitVec.ofNat 5 (m.toList.idxOf mn)

/-- OPCODE_MAP is a bijection (R8, R64): no mnemonic stands twice among the 32 places. -/
abbrev OpcodeMap.bijective (m : OpcodeMap) : Prop := m.toList.Nodup

/-- REF_OPCODE_MAP (R64): the values 0..31 in the order of R2. "REF_OPCODE_MAP IS NOT THE REPOSITORY'S ASSIGNMENT". DESIGN
CHOICE of the spec, unsafe for a claim about a raw word (log 1). -/
def refOpcodeMap : OpcodeMap :=
  #v[.add, .sub, .and, .or, .xor, .sll, .srl, .sra,
     .slt, .sltu, .addi, .andi, .ori, .xori, .slli, .srli,
     .srai, .slti, .sltiu, .lb, .lbu, .lw, .sb, .sw,
     .jmp, .jmpr, .beq, .bne, .blt, .bge, .bltu, .bgeu]

/-! ### Fields and extension -/

/-- `word[15:11]` (R57). -/
def fieldOpcode (w : Word) : BitVec 5 := w.extractLsb' 11 5

/-- `word[10:8]`: rd in R, I and J format, rs1 in B format (R56). -/
def fieldHigh (w : Word) : Reg := (w.extractLsb' 8 3).toFin

/-- `word[7:5]`: rs1 in R and I format, rs2 in B format (R56). -/
def fieldMid (w : Word) : Reg := (w.extractLsb' 5 3).toFin

/-- `word[4:2]`: rs2 in R format (R56). -/
def fieldLow (w : Word) : Reg := (w.extractLsb' 2 3).toFin

/-- `word[4:0]`: the immediate field of I and B format (R56). -/
def fieldImm5 (w : Word) : BitVec 5 := w.extractLsb' 0 5

/-- `word[7:0]`: the immediate field of J format (R56). -/
def fieldImm8 (w : Word) : BitVec 8 := w.extractLsb' 0 8

/-- `sext_5` (R13). -/
def sext5 (f : BitVec 5) : Word := f.signExtend 16

/-- `zext_5` (R13). -/
def zext5 (f : BitVec 5) : Word := f.setWidth 16

/-- `sext_8` (R13); also the data extension of Lb (R99). -/
def sext8 (f : BitVec 8) : Word := f.signExtend 16

/-- `zext_8` (R13): the data extension of Lbu (R100). -/
def zext8 (f : BitVec 8) : Word := f.setWidth 16

/-- The decoded immediate of a word for one kind of immediate (R62). -/
def immediateOf (k : ImmKind) (w : Word) : Word :=
  match k with
  | .none  => 0#16
  | .zext5 => zext5 (fieldImm5 w)
  | .sext5 => sext5 (fieldImm5 w)
  | .sext8 => sext8 (fieldImm8 w)

/-! ### Decode -/

/-- `decode` of R65: total over all 16-bit words (R57, R68). R-format bits [1:0] are not read (R58, R67; log 5). -/
def decodeRecord (m : OpcodeMap) (w : Word) : Decoded :=
  let mn := m.mnemonicAt (fieldOpcode w)
  let imm := immediateOf mn.immKind w
  match mn.format with
  | .R => ⟨mn, .R, fieldHigh w, fieldMid w, fieldLow w, imm⟩
  | .I => ⟨mn, .I, fieldHigh w, fieldMid w, 0, imm⟩
  | .J => ⟨mn, .J, fieldHigh w, 0, 0, imm⟩
  | .B => ⟨mn, .B, 0, fieldHigh w, fieldMid w, imm⟩

/-- The instruction a record names, with only the fields its rule uses (R66). -/
def Decoded.toInstr (d : Decoded) : Instr :=
  match d.mnemonic with
  | .add  => .add d.rd d.rs1 d.rs2
  | .sub  => .sub d.rd d.rs1 d.rs2
  | .and  => .and d.rd d.rs1 d.rs2
  | .or   => .or d.rd d.rs1 d.rs2
  | .xor  => .xor d.rd d.rs1 d.rs2
  | .sll  => .sll d.rd d.rs1 d.rs2
  | .srl  => .srl d.rd d.rs1 d.rs2
  | .sra  => .sra d.rd d.rs1 d.rs2
  | .slt  => .slt d.rd d.rs1 d.rs2
  | .sltu => .sltu d.rd d.rs1 d.rs2
  | .addi  => .addi d.rd d.rs1 d.imm
  | .andi  => .andi d.rd d.rs1 d.imm
  | .ori   => .ori d.rd d.rs1 d.imm
  | .xori  => .xori d.rd d.rs1 d.imm
  | .slli  => .slli d.rd d.rs1 d.imm
  | .srli  => .srli d.rd d.rs1 d.imm
  | .srai  => .srai d.rd d.rs1 d.imm
  | .slti  => .slti d.rd d.rs1 d.imm
  | .sltiu => .sltiu d.rd d.rs1 d.imm
  | .lb  => .lb d.rd d.rs1 d.imm
  | .lbu => .lbu d.rd d.rs1 d.imm
  | .lw  => .lw d.rd d.rs1 d.imm
  | .sb  => .sb d.rd d.rs1 d.imm
  | .sw  => .sw d.rd d.rs1 d.imm
  | .jmp  => .jmp d.rd d.imm
  | .jmpr => .jmpr d.rd d.rs1 d.imm
  | .beq  => .beq d.rs1 d.rs2 d.imm
  | .bne  => .bne d.rs1 d.rs2 d.imm
  | .blt  => .blt d.rs1 d.rs2 d.imm
  | .bge  => .bge d.rs1 d.rs2 d.imm
  | .bltu => .bltu d.rs1 d.rs2 d.imm
  | .bgeu => .bgeu d.rs1 d.rs2 d.imm

/-- The instruction a word stands for under an opcode map (R65). -/
def decode (m : OpcodeMap) (w : Word) : Instr := (decodeRecord m w).toInstr

/-- Why bytes are not decoded. Only their number can be wrong: every 16-bit word decodes (R65, R68). -/
inductive DecodeReject where
  /-- fewer than the two bytes of an instruction word (R55) -/
  | tooFewBytes
  deriving DecidableEq, Repr

/-- Decode the first instruction of a byte list, low byte first (R41, R55), and give the bytes that follow it. -/
def decodeBytes (m : OpcodeMap) : List Byte → Except DecodeReject (Instr × List Byte)
  | lo :: hi :: rest => .ok (decode m (hi ++ lo), rest)
  | _ => .error .tooFewBytes

/-! ### Encode -/

/-- A register number as its 3-bit field (R20). -/
def regField (r : Reg) : BitVec 3 := BitVec.ofFin (w := 3) r

/-- The 5-bit immediate field `v mod 32` (R70). -/
def immField5 (v : Word) : BitVec 5 := v.setWidth 5

/-- The 8-bit immediate field `v mod 256` (R70). -/
def immField8 (v : Word) : BitVec 8 := v.setWidth 8

/-- R format, `ooooo ddd sss ttt 00`: an assembler writes the reserved bits as 00 (R56, R67, R70). -/
def encodeR (opc : BitVec 5) (rd rs1 rs2 : Reg) : Word := opc ++ regField rd ++ regField rs1 ++ regField rs2 ++ 0#2

/-- I format, `ooooo ddd sss iiiii` (R56, R70); B format has the same shape with rs1 and rs2 in the register fields. -/
def encodeI (opc : BitVec 5) (hi mid : Reg) (imm : Word) : Word := opc ++ regField hi ++ regField mid ++ immField5 imm

/-- J format, `ooooo ddd iiiiiiii` (R56, R70). -/
def encodeJ (opc : BitVec 5) (rd : Reg) (imm : Word) : Word := opc ++ regField rd ++ immField8 imm

/-- `encode` of a record by its format (R70). -/
def encodeRecord (m : OpcodeMap) (d : Decoded) : Word :=
  match d.format with
  | .R => encodeR (m.opcodeOf d.mnemonic) d.rd d.rs1 d.rs2
  | .I => encodeI (m.opcodeOf d.mnemonic) d.rd d.rs1 d.imm
  | .J => encodeJ (m.opcodeOf d.mnemonic) d.rd d.imm
  | .B => encodeI (m.opcodeOf d.mnemonic) d.rs1 d.rs2 d.imm

/-- The word of an instruction under an opcode map (R70). -/
def encode (m : OpcodeMap) (i : Instr) : Word := encodeRecord m i.toDecoded

/-- What an assembler does: refuse an immediate outside its range, else encode (R74). -/
def assemble (m : OpcodeMap) (i : Instr) : Option Word := if i.wf then some (encode m i) else none

/-- The instruction's two bytes as memory holds them, low byte first (R41, R55). -/
def wordBytes (w : Word) : List Byte := [w.setWidth 8, w.extractLsb' 8 8]

/-- The instruction the decoder reads from an opcode-table word of `nbits` bits, bits above them 0. The table's opcode
values are REF_OPCODE_MAP's (R64). -/
def decodeTableWord (nbits w : Nat) : Option Instr :=
  match decodeBytes refOpcodeMap (wordBytes (BitVec.ofNat 16 (w % 2 ^ nbits))) with
  | .ok (i, _) => some i
  | .error _ => none

end Sys2Proof
end

