-- ==== Sys2Proof/Machine/State.lean ====
section
/-! DEFINITION. The state as plain data (spec 10_state.md), the reasons a step can stop, and the state after reset
(70_reset_and_hazards.md R136). -/

namespace Sys2Proof.Machine

/-! ### Memory -/

/-- Memory (R32): the bytes that differ from 0x00, by strictly rising address. An unlisted address reads 0x00, the value
"clear memory" leaves (R35, R136; log 13). -/
abbrev Memory := List Host.Cell

/-- The canonical form from an address on: strictly rising addresses from `lo`, inside the 65536 bytes, no entry 0. -/
def Memory.wfFrom : Nat → Memory → Bool
  | _, [] => true
  | lo, (a, b) :: m => decide (lo ≤ a) && decide (a < Config.memSize) && (b != 0#8) && Memory.wfFrom (a + 1) m

/-- The canonical form of a memory. -/
def Memory.wf (m : Memory) : Bool := Memory.wfFrom 0 m

/-! ### Display -/

/-- One cell of the display grid (R33). -/
structure DisplayCell where
  character  : Byte
  foreground : BitVec 4
  background : BitVec 4
  deriving DecidableEq, Repr

/-- The display buffer: rows from top to bottom, each row's cells from left to right, `display[y][x]` (R33, R126). -/
abbrev DisplayGrid := List (List DisplayCell)

/-- A grid of `h` rows of `w` cells (R33). -/
def DisplayGrid.dims (w h : Nat) (g : DisplayGrid) : Bool := g.length == h && g.all (fun row => row.length == w)

/-! ### Open parameters -/

/-- The open parameters of R8, all but PALETTE, as data that no step changes: "the model takes each as an argument". -/
structure Platform where
  /-- OPCODE_MAP (R64, D2) -/
  opcodeMap   : OpcodeMap
  /-- REG_INIT: r1 to r7 after an image load, r1 first (R35, D13) -/
  regInit     : Vector Word 7
  /-- DISPLAY_BASE (R125, D10) -/
  displayBase : Word
  /-- DISPLAY_W (R33, D10) -/
  displayW    : Nat
  /-- DISPLAY_H (R33, D10) -/
  displayH    : Nat
  /-- DISPLAY_INIT (R35, D15) -/
  displayInit : DisplayGrid
  /-- INPUT_ADDR (R129, D12) -/
  inputAddr   : Word
  deriving DecidableEq, Repr

/-- What R8, R64 and R125 ask of the parameters: OPCODE_MAP a bijection, DISPLAY_W and DISPLAY_H positive,
`DISPLAY_BASE + 2 * DISPLAY_W * DISPLAY_H <= 65536`, DISPLAY_INIT of H×W cells. -/
def Platform.wf (p : Platform) : Bool :=
  decide p.opcodeMap.bijective && decide (0 < p.displayW) && decide (0 < p.displayH)
    && decide (p.displayBase.toNat + 2 * p.displayW * p.displayH ≤ Config.memSize)
    && DisplayGrid.dims p.displayW p.displayH p.displayInit

/-! ### The retire record and the host's actions -/

/-- One byte write: address, byte before, byte after (R38, R124). -/
structure MemWrite where
  addr   : Word
  before : Byte
  after  : Byte
  deriving DecidableEq, Repr

/-- One changed register: index, value before, value after (R124). -/
structure RegChange where
  reg    : Reg
  before : Word
  after  : Word
  deriving DecidableEq, Repr

/-- The retire record a step hands to the host (R124). -/
structure RetireRecord where
  fetchPc    : Word
  word       : Word
  decoded    : Decoded
  regChanges : List RegChange
  memWrites  : List MemWrite
  deriving DecidableEq, Repr

/-- What the host may do between two steps (R130). -/
inductive HostAction where
  /-- the digital-input actor overwrites the byte at INPUT_ADDR (R129) -/
  | inputWrite (v : Byte)
  /-- the loader hands over a binary image (R136) -/
  | loadImage (image : List Byte)
  /-- the host reads registers, display, pc and memory (R130) -/
  | snapshot
  deriving DecidableEq, Repr

/-! ### The state -/

/-- The whole state of the block (10_state.md), with the open parameters and the host's coming actions as data. -/
structure State where
  /-- r0 to r7 (R20); r0's place is read and written through `State.readReg` and `State.writeReg` only (R21, R23) -/
  regs      : Vector Word 8
  /-- the program counter (R26) -/
  pc        : Word
  /-- the 65536 bytes (R32) -/
  mem       : Memory
  /-- the display buffer (R33) -/
  display   : DisplayGrid
  /-- the running step's memory-write list (R38) -/
  memWrites : List MemWrite
  /-- the record the latest step handed to the host (R124); output, read by no instruction -/
  retire    : Option RetireRecord
  /-- the open parameters (R8) -/
  platform  : Platform
  /-- the model's own field (log 12, log 26): the host's actions at each coming step boundary (R129, R130), the next boundary
  first -/
  host      : List (List HostAction)
  deriving DecidableEq, Repr

/-- Why a step stops with a fault. The hardware raises none (R115). -/
inductive Fault where
  /-- The decode failure of the source's §7, "unreachable: every opcode is assigned" (R69, C1): kept as a constructor that no
  word reaches. Raised by `step` if the two fetched bytes did not decode, which never happens. Safe (log 25). -/
  | decodeFailure
  deriving DecidableEq, Repr

/-- Why a step has no meaning. -/
inductive Refusal where
  /-- No meaning for the instruction. Raised by `exec`'s rejected arms, of which there are none. Safe. -/
  | notModelled (mnemonic : String)
  /-- The host hands over an image longer than 65536 bytes, which "has no meaning in this spec and the model refuses it" (R137).
  Raised by the image load. Safe (log 13). -/
  | imageTooLong
  deriving DecidableEq, Repr

/-! ### Reset -/

/-- The values of the open parameters at `State.reset`: REF_OPCODE_MAP (log 1), REG_INIT zeros (log 2), the display of the
spec's example parameters, base 0x8000, 4 by 2 cells (95_test_vectors.md section 2.6; log 10), blank cells (log 14), INPUT_ADDR
0xF000 (log 12). DESIGN CHOICE, unsafe: the spec leaves each open (R8). -/
def Platform.example95 : Platform where
  opcodeMap   := refOpcodeMap
  regInit     := #v[0, 0, 0, 0, 0, 0, 0]
  displayBase := 0x8000
  displayW    := 4
  displayH    := 2
  displayInit := List.replicate 2 (List.replicate 4 ⟨0, 0, 0⟩)
  inputAddr   := 0xF000

/-- The machine right after reset: the image load of R136 with an empty image (R35, R138; log 20), on `Platform.example95`. -/
def State.reset : State where
  regs      := #v[0, 0, 0, 0, 0, 0, 0, 0]
  pc        := 0x0000
  mem       := []
  display   := Platform.example95.displayInit
  memWrites := []
  retire    := none
  platform  := Platform.example95
  host      := []

end Sys2Proof.Machine
end

