-- ==== Sys2Proof/Machine/Ops.lean ====
section
/-! DEFINITION. The operations every instruction is built from: memory bytes (spec 20_memory.md), registers and pc (10_state.md),
the display controller (60_exceptions.md R125 to R128), instruction fetch (R41), the start and the end of a step (R15, R24,
R124).

There is no exception to take and none to return from: "The hardware raises no synchronous exception" (R115), "There is no trap
entry" (R119), "no return-from-trap instruction" (R120), no interrupts (R117). -/

namespace Sys2Proof.Machine

/-! ### Memory bytes -/

/-- The byte at an address; an unlisted address reads 0x00. -/
def Memory.get : Memory → Nat → Byte
  | [], _ => 0#8
  | (k, b) :: m, a => if k = a then b else Memory.get m a

/-- The memory with an address off the list, so that it reads 0x00. -/
def Memory.eraseCell (m : Memory) (a : Nat) : Memory := m.filter (fun c => c.1 != a)

/-- The memory with a cell put before the first higher address. -/
def Memory.insertCell : Memory → Nat → Byte → Memory
  | [], a, v => [(a, v)]
  | (k, b) :: m, a, v => if a < k then (a, v) :: (k, b) :: m else (k, b) :: Memory.insertCell m a v

/-- The memory with one byte written, in canonical form: a 0x00 takes its address off the list. -/
def Memory.put (m : Memory) (a : Nat) (v : Byte) : Memory :=
  if v = 0#8 then m.eraseCell a else (m.eraseCell a).insertCell a v

/-- The memory that holds these bytes from an address on and 0x00 elsewhere. -/
def Memory.ofBytes : Nat → List Byte → Memory
  | _, [] => []
  | a, b :: bs => if b = 0#8 then Memory.ofBytes (a + 1) bs else (a, b) :: Memory.ofBytes (a + 1) bs

/-- `mem[a]`, `MemRead(a, 1)` (R37). -/
def State.readByte (s : State) (a : Word) : Byte := s.mem.get a.toNat

/-- `MemRead(a, 2)`: the low byte at `a`, the high byte at `a +16 1`, which wraps (R37). -/
def State.readWord (s : State) (a : Word) : Word := s.readByte (a + 1#16) ++ s.readByte a

/-- A byte written to the memory array only, as the host writes (R54). -/
def State.pokeByte (a : Word) (d : Byte) (s : State) : State := { s with mem := s.mem.put a.toNat d }

/-! ### The display controller -/

/-- The byte address is in the display window: `0 <= a - DISPLAY_BASE < 2 * DISPLAY_W * DISPLAY_H` over the integers, no wrap
(R125; an address below the base is outside, R128, D10, log 10). -/
def Platform.inWindow (p : Platform) (a : Word) : Bool :=
  decide (p.displayBase.toNat ≤ a.toNat) && decide (a.toNat - p.displayBase.toNat < 2 * p.displayW * p.displayH)

/-- An even in-cell offset writes the character and nothing else of the cell (R126). -/
def DisplayCell.setCharacter (d : Byte) (c : DisplayCell) : DisplayCell := { c with character := d }

/-- An odd in-cell offset writes background `d[7:4]` and foreground `d[3:0]`; the character stays (R127). -/
def DisplayCell.setAttribute (d : Byte) (c : DisplayCell) : DisplayCell :=
  { c with background := d.extractLsb' 4 4, foreground := d.extractLsb' 0 4 }

/-- The cell in column `x` of row `y` changed. -/
def DisplayGrid.modifyCell (x y : Nat) (f : DisplayCell → DisplayCell) (g : DisplayGrid) : DisplayGrid :=
  g.modify y (fun row => row.modify x f)

/-- `display[y][x]` (R126). -/
def DisplayGrid.cell (g : DisplayGrid) (x y : Nat) : Option DisplayCell := (g[y]?).bind (fun row => row[x]?)

/-- `Display.offer(a, d)`: in the window, `off = a - DISPLAY_BASE`, `cell = off div 2`, `x = cell mod W`, `y = cell div W`, and
the parity of `off` picks character or attribute (R125 to R127); outside it the buffer is unchanged (R128). -/
def Platform.offer (p : Platform) (a : Word) (d : Byte) (g : DisplayGrid) : DisplayGrid :=
  if p.inWindow a then
    let off := a.toNat - p.displayBase.toNat
    let cell := off / 2
    g.modifyCell (cell % p.displayW) (cell / p.displayW)
      (if off % 2 = 0 then DisplayCell.setCharacter d else DisplayCell.setAttribute d)
  else g

/-- The colours a cell is shown in, background and foreground, through PALETTE (R127; log 21). -/
def DisplayCell.colours (c : DisplayCell) : Config.Colour × Config.Colour :=
  (Config.palette c.background, Config.palette c.foreground)

/-! ### Store bytes -/

/-- `ByteWrite(b, d)`: the memory byte is written, the byte is offered to the display, and the write joins the step's
memory-write list (R38, R39, R124). -/
def State.byteWrite (a : Word) (d : Byte) (s : State) : State :=
  { s with
    mem := s.mem.put a.toNat d
    display := s.platform.offer a d s.display
    memWrites := s.memWrites ++ [⟨a, s.readByte a, d⟩] }

/-- `MemWrite(a, 2, v)`: low byte at `a` first, then high byte at `a +16 1` (R38; D24 and N7, log 22). -/
def State.wordWrite (a : Word) (v : Word) (s : State) : State :=
  (s.byteWrite a (v.setWidth 8)).byteWrite (a + 1#16) (v.extractLsb' 8 8)

/-! ### Registers and pc -/

/-- `x[i]`: r0 reads 0 (R21). -/
def State.readReg (s : State) (i : Reg) : Word := if i = 0 then 0#16 else s.regs[i.val]

/-- `x[i] <- v`: a write to r0 is discarded (R22, R23). -/
def State.writeReg (i : Reg) (v : Word) (s : State) : State :=
  if i = 0 then s else { s with regs := s.regs.set i.val v }

/-- `pc <- t` (R14); the mask to 16 bits of R27 is in the type. -/
def State.setPc (t : Word) (s : State) : State := { s with pc := t }

/-- The address of the next instruction in memory, `pc +16 2` (R28, R104). -/
def State.nextPc (s : State) : Word := s.pc + 2#16

/-- The end of every instruction that writes one register and goes to `t`: `x[rd] <- v; pc <- t` (R75, R105, R106). -/
def writeAndGo (rd : Reg) (v t : Word) (s : State) : Host.Outcome State Fault Refusal :=
  .next ((s.writeReg rd v).setPc t)

/-- The end of every instruction that only moves pc. -/
def goTo (t : Word) (s : State) : Host.Outcome State Fault Refusal := .next (s.setPc t)

/-! ### Fetch, and the start and end of a step -/

/-- The two bytes of the instruction at pc, low byte first (R41); an odd pc is fetched the same way, and the second address wraps
(R43; D8, log 8). -/
def State.fetchBytes (s : State) : List Byte := [s.readByte s.pc, s.readByte (s.pc + 1#16)]

/-- The instruction word at pc, `MemRead(pc, 2)` (R41). -/
def State.fetchWord (s : State) : Word := s.readWord s.pc

/-- A step begins with an empty memory-write list (R124). -/
def State.beginStep (s : State) : State := { s with memWrites := [] }

/-- Post-step: register 0 forced to 0 (R24). The pc's mask (R27) is in its type. -/
def State.postStep (s : State) : State := { s with regs := s.regs.set 0 0#16 }

/-- The registers r1 to r7, in increasing order, whose value differs between two states (R124; log 17). -/
def regChanges (before after : State) : List RegChange :=
  [1, 2, 3, 4, 5, 6, 7].filterMap fun i =>
    if before.readReg i = after.readReg i then none else some ⟨i, before.readReg i, after.readReg i⟩

/-- The retire record of a step from `before`, whose instruction and post-step normalisation ended in `after` (R124). -/
def retireRecord (before after : State) : RetireRecord where
  fetchPc    := before.pc
  word       := before.fetchWord
  decoded    := decodeRecord before.platform.opcodeMap before.fetchWord
  regChanges := regChanges before after
  memWrites  := after.memWrites

/-- The end of a step: post-step normalisation, then the retire record handed over with the step's memory-write list. -/
def State.endStep (before after : State) : State :=
  { after.postStep with retire := some (retireRecord before after.postStep), memWrites := [] }

end Sys2Proof.Machine
end

