-- ==== Sys2Proof/Machine/Operands.lean ====
section
/-! DEFINITION. The operand forms: the effective address of loads and stores (spec 41_load_store.md R98), shift amounts
(40_integer.md R77), jump and branch targets (42_control.md R104, R106), and the results of the ALU (R75 to R96). Register and
immediate operands are `State.readReg` and the decoded immediate. -/

namespace Sys2Proof.Machine

/-- `ea = x[rs1] +16 imm`, the one addressing mode (R98). -/
def effectiveAddress (s : State) (rs1 : Reg) (imm : Word) : Word := s.readReg rs1 + imm

/-- The amount of a register shift, `x[rs2][4:0]` (R77; D7, log 7). -/
def shiftAmount (v : Word) : Nat := (v.extractLsb' 0 5).toNat

/-- `mask16(a << sh)` (R83). -/
def shiftLeft (a : Word) (sh : Nat) : Word := a <<< sh

/-- `a >> sh`, zeros enter at bit 15 (R84). -/
def shiftRightLogical (a : Word) (sh : Nat) : Word := a >>> sh

/-- `mask16(floor(s(a) / 2^sh))`, copies of bit 15 enter at the top (R85). -/
def shiftRightArith (a : Word) (sh : Nat) : Word := a.sshiftRight sh

/-- `target = pc +16 imm`, from the fetch pc, not scaled (R104). -/
def relativeTarget (s : State) (imm : Word) : Word := s.pc + imm

/-- Jmpr's target `(x[rs1] +16 imm) & 0xFFFE` (R106). -/
def registerTarget (s : State) (rs1 : Reg) (imm : Word) : Word := (s.readReg rs1 + imm) &&& 0xFFFE#16

end Sys2Proof.Machine
end

