-- ==== Sys2Proof/Machine/Flags.lean ====
section
/-! DEFINITION. "The hardware has no status flags, no condition codes and no predicate registers" (spec 10_state.md R29): what
stands here is what it has in their place, the comparisons that Slt to Sltiu write as 0 or 1 and that decide the conditional
branches (R12, R86, R87, R107 to R112). -/

namespace Sys2Proof.Machine

/-- `a <s b`: `s(a) < s(b)` (R12). -/
def lessSigned (a b : Word) : Bool := decide (a.toInt < b.toInt)

/-- `a <u b`: `u(a) < u(b)` (R12). -/
def lessUnsigned (a b : Word) : Bool := decide (a.toNat < b.toNat)

/-- `bool01(c)`: 1 if c holds, else 0 (R12). -/
def bool01 (c : Bool) : Word := if c then 1#16 else 0#16

/-- The end of a conditional branch: `pc +16 imm` if its condition holds, else `pc +16 2` (R104). -/
def branchIf (taken : Bool) (imm : Word) (s : State) : Host.Outcome State Fault Refusal :=
  goTo (if taken then relativeTarget s imm else s.nextPc) s

end Sys2Proof.Machine
end

