-- ==== Sys2Proof/Machine/Control.lean ====
section
/-! DEFINITION. The control transfers (spec 42_control.md). No delay slot, no target check (R104, R113). -/

namespace Sys2Proof.Machine

/-- R105. -/
def execJmp (rd : Reg) (imm : Word) (s : State) : Host.Outcome State Fault Refusal :=
  writeAndGo rd s.nextPc (relativeTarget s imm) s

/-- R106: the target is computed from rs1 before the link is written (D6, log 6). -/
def execJmpr (rd rs1 : Reg) (imm : Word) (s : State) : Host.Outcome State Fault Refusal :=
  writeAndGo rd s.nextPc (registerTarget s rs1 imm) s

/-- R107. -/
def execBeq (rs1 rs2 : Reg) (imm : Word) (s : State) : Host.Outcome State Fault Refusal :=
  branchIf (s.readReg rs1 == s.readReg rs2) imm s

/-- R108. -/
def execBne (rs1 rs2 : Reg) (imm : Word) (s : State) : Host.Outcome State Fault Refusal :=
  branchIf (s.readReg rs1 != s.readReg rs2) imm s

/-- R109. -/
def execBlt (rs1 rs2 : Reg) (imm : Word) (s : State) : Host.Outcome State Fault Refusal :=
  branchIf (lessSigned (s.readReg rs1) (s.readReg rs2)) imm s

/-- R110. -/
def execBge (rs1 rs2 : Reg) (imm : Word) (s : State) : Host.Outcome State Fault Refusal :=
  branchIf (!lessSigned (s.readReg rs1) (s.readReg rs2)) imm s

/-- R111. -/
def execBltu (rs1 rs2 : Reg) (imm : Word) (s : State) : Host.Outcome State Fault Refusal :=
  branchIf (lessUnsigned (s.readReg rs1) (s.readReg rs2)) imm s

/-- R112. -/
def execBgeu (rs1 rs2 : Reg) (imm : Word) (s : State) : Host.Outcome State Fault Refusal :=
  branchIf (!lessUnsigned (s.readReg rs1) (s.readReg rs2)) imm s

end Sys2Proof.Machine
end

