-- ==== Sys2Proof/Machine/Integer.lean ====
section
/-! DEFINITION. The nineteen integer instructions (spec 40_integer.md): each reads its sources, writes one result to rd and
advances pc by 2 (R75). -/

namespace Sys2Proof.Machine

/-- R78. -/
def execAdd (rd rs1 rs2 : Reg) (s : State) : Host.Outcome State Fault Refusal :=
  writeAndGo rd (s.readReg rs1 + s.readReg rs2) s.nextPc s

/-- R79: rs1 minus rs2. -/
def execSub (rd rs1 rs2 : Reg) (s : State) : Host.Outcome State Fault Refusal :=
  writeAndGo rd (s.readReg rs1 - s.readReg rs2) s.nextPc s

/-- R80. -/
def execAnd (rd rs1 rs2 : Reg) (s : State) : Host.Outcome State Fault Refusal :=
  writeAndGo rd (s.readReg rs1 &&& s.readReg rs2) s.nextPc s

/-- R81. -/
def execOr (rd rs1 rs2 : Reg) (s : State) : Host.Outcome State Fault Refusal :=
  writeAndGo rd (s.readReg rs1 ||| s.readReg rs2) s.nextPc s

/-- R82. -/
def execXor (rd rs1 rs2 : Reg) (s : State) : Host.Outcome State Fault Refusal :=
  writeAndGo rd (s.readReg rs1 ^^^ s.readReg rs2) s.nextPc s

/-- R83. -/
def execSll (rd rs1 rs2 : Reg) (s : State) : Host.Outcome State Fault Refusal :=
  writeAndGo rd (shiftLeft (s.readReg rs1) (shiftAmount (s.readReg rs2))) s.nextPc s

/-- R84. -/
def execSrl (rd rs1 rs2 : Reg) (s : State) : Host.Outcome State Fault Refusal :=
  writeAndGo rd (shiftRightLogical (s.readReg rs1) (shiftAmount (s.readReg rs2))) s.nextPc s

/-- R85. -/
def execSra (rd rs1 rs2 : Reg) (s : State) : Host.Outcome State Fault Refusal :=
  writeAndGo rd (shiftRightArith (s.readReg rs1) (shiftAmount (s.readReg rs2))) s.nextPc s

/-- R86. -/
def execSlt (rd rs1 rs2 : Reg) (s : State) : Host.Outcome State Fault Refusal :=
  writeAndGo rd (bool01 (lessSigned (s.readReg rs1) (s.readReg rs2))) s.nextPc s

/-- R87. -/
def execSltu (rd rs1 rs2 : Reg) (s : State) : Host.Outcome State Fault Refusal :=
  writeAndGo rd (bool01 (lessUnsigned (s.readReg rs1) (s.readReg rs2))) s.nextPc s

/-- R88. -/
def execAddi (rd rs1 : Reg) (imm : Word) (s : State) : Host.Outcome State Fault Refusal :=
  writeAndGo rd (s.readReg rs1 + imm) s.nextPc s

/-- R89. -/
def execAndi (rd rs1 : Reg) (imm : Word) (s : State) : Host.Outcome State Fault Refusal :=
  writeAndGo rd (s.readReg rs1 &&& imm) s.nextPc s

/-- R90. -/
def execOri (rd rs1 : Reg) (imm : Word) (s : State) : Host.Outcome State Fault Refusal :=
  writeAndGo rd (s.readReg rs1 ||| imm) s.nextPc s

/-- R91. -/
def execXori (rd rs1 : Reg) (imm : Word) (s : State) : Host.Outcome State Fault Refusal :=
  writeAndGo rd (s.readReg rs1 ^^^ imm) s.nextPc s

/-- R92: the amount is the zero-extended immediate (R77). -/
def execSlli (rd rs1 : Reg) (imm : Word) (s : State) : Host.Outcome State Fault Refusal :=
  writeAndGo rd (shiftLeft (s.readReg rs1) imm.toNat) s.nextPc s

/-- R93. -/
def execSrli (rd rs1 : Reg) (imm : Word) (s : State) : Host.Outcome State Fault Refusal :=
  writeAndGo rd (shiftRightLogical (s.readReg rs1) imm.toNat) s.nextPc s

/-- R94. -/
def execSrai (rd rs1 : Reg) (imm : Word) (s : State) : Host.Outcome State Fault Refusal :=
  writeAndGo rd (shiftRightArith (s.readReg rs1) imm.toNat) s.nextPc s

/-- R95. -/
def execSlti (rd rs1 : Reg) (imm : Word) (s : State) : Host.Outcome State Fault Refusal :=
  writeAndGo rd (bool01 (lessSigned (s.readReg rs1) imm)) s.nextPc s

/-- R96. -/
def execSltiu (rd rs1 : Reg) (imm : Word) (s : State) : Host.Outcome State Fault Refusal :=
  writeAndGo rd (bool01 (lessUnsigned (s.readReg rs1) imm)) s.nextPc s

end Sys2Proof.Machine
end

