-- ==== Sys2Proof/Machine/LoadStore.lean ====
section
/-! DEFINITION. The loads and stores (spec 41_load_store.md). Loads read the memory array, never the display buffer (R39; D11,
log 11); a store's bytes go to memory and are offered to the display (R38). -/

namespace Sys2Proof.Machine

/-- R99. -/
def execLb (rd rs1 : Reg) (imm : Word) (s : State) : Host.Outcome State Fault Refusal :=
  writeAndGo rd (sext8 (s.readByte (effectiveAddress s rs1 imm))) s.nextPc s

/-- R100. -/
def execLbu (rd rs1 : Reg) (imm : Word) (s : State) : Host.Outcome State Fault Refusal :=
  writeAndGo rd (zext8 (s.readByte (effectiveAddress s rs1 imm))) s.nextPc s

/-- R101. -/
def execLw (rd rs1 : Reg) (imm : Word) (s : State) : Host.Outcome State Fault Refusal :=
  writeAndGo rd (s.readWord (effectiveAddress s rs1 imm)) s.nextPc s

/-- R102: the rd field names the data register. -/
def execSb (rd rs1 : Reg) (imm : Word) (s : State) : Host.Outcome State Fault Refusal :=
  goTo s.nextPc (s.byteWrite (effectiveAddress s rs1 imm) ((s.readReg rd).setWidth 8))

/-- R103. -/
def execSw (rd rs1 : Reg) (imm : Word) (s : State) : Host.Outcome State Fault Refusal :=
  goTo s.nextPc (s.wordWrite (effectiveAddress s rs1 imm) (s.readReg rd))

end Sys2Proof.Machine
end

