-- ==== Sys2Proof/Machine/HostSide.lean ====
section
/-! DEFINITION. What the host does to the block between two steps (spec 60_exceptions.md R129, R130; 70_reset_and_hazards.md R136,
R137). "The host may overwrite it with any value between any two steps, never inside a step" (R129): the actions waiting at a
step boundary are data of the state (log 12, log 26). -/

namespace Sys2Proof.Machine

/-- The registers after an image load: r0 = 0, r1 to r7 = REG_INIT (R35, R136). -/
def Platform.initialRegs (p : Platform) : Vector Word 8 :=
  #v[0#16, p.regInit[0], p.regInit[1], p.regInit[2], p.regInit[3], p.regInit[4], p.regInit[5], p.regInit[6]]

/-- Image load: memory cleared to 0x00, the image copied from address 0, pc to 0, registers and display to their initial values;
nothing is offered to the display and no retire record is made (R54, R136). An image longer than 65536 bytes is refused (R137;
D14, log 13). -/
def loadImage (image : List Byte) (s : State) : Host.Outcome State Fault Refusal :=
  if image.length ≤ Config.memSize then
    .next { s with
      regs := s.platform.initialRegs
      pc := 0#16
      mem := Memory.ofBytes 0 image
      display := s.platform.displayInit }
  else .refused .imageTooLong

/-- The host overwrites the byte at INPUT_ADDR: memory only, not offered to the display, no event (R54, R129). -/
def inputWrite (v : Byte) (s : State) : State := s.pokeByte s.platform.inputAddr v

/-- What a snapshot shows the host: registers, display, and for the model pc and memory (R130; D1). -/
structure Snapshot where
  regs    : List Word
  display : DisplayGrid
  pc      : Word
  mem     : Memory
  deriving DecidableEq, Repr

/-- A snapshot: read-only (R130). -/
def State.snapshot (s : State) : Snapshot where
  regs    := [0, 1, 2, 3, 4, 5, 6, 7].map s.readReg
  display := s.display
  pc      := s.pc
  mem     := s.mem

/-- One action of the host (R130). -/
def hostAct (a : HostAction) (s : State) : Host.Outcome State Fault Refusal :=
  match a with
  | .inputWrite v => .next (inputWrite v s)
  | .loadImage image => loadImage image s
  | .snapshot => .next s

/-- The host's actions at one boundary, one after the other. -/
def hostActs : List HostAction → State → Host.Outcome State Fault Refusal
  | [], s => .next s
  | a :: as, s =>
    match hostAct a s with
    | .next t => hostActs as t
    | .fault r => .fault r
    | .refused r => .refused r

/-- The boundary after a step: the actions waiting for it happen and leave the schedule (R129, R145). -/
def boundary (s : State) : Host.Outcome State Fault Refusal :=
  match s.host with
  | [] => .next s
  | acts :: rest => hostActs acts { s with host := rest }

end Sys2Proof.Machine
end

