-- ==== Sys2Proof/Machine/Step.lean ====
section
/-! DEFINITION. One step: fetch, decode, execute, normalise, retire, then the host's turn at the boundary (spec 00_scope.md R9, R15;
20_memory.md R41; 60_exceptions.md R124, R130). -/

namespace Sys2Proof.Machine

/-- After the instruction: the step ends (R24, R124) and the host has its turn (R129, R130). -/
def finishStep (before : State) (o : Host.Outcome State Fault Refusal) : Host.Outcome State Fault Refusal :=
  match o with
  | .next after => boundary (before.endStep after)
  | .fault r => .fault r
  | .refused r => .refused r

/-- One whole, atomic instruction (R9, R45). -/
def step (s : State) : Host.Outcome State Fault Refusal :=
  match decodeBytes s.platform.opcodeMap s.fetchBytes with
  | .ok (i, _) => finishStep s (exec i s.beginStep)
  | .error _ => .fault .decodeFailure

/-- The state with an instruction word of `nbits` bits (bits above them 0) stored at pc and pc +16 1, low byte first, as a load
from outside would leave it: memory only (R41, R54; log 24). -/
def State.withFetchWord (s : State) (nbits w : Nat) : State :=
  let word : Word := BitVec.ofNat 16 (w % 2 ^ nbits)
  (s.pokeByte s.pc (word.setWidth 8)).pokeByte (s.pc + 1#16) (word.extractLsb' 8 8)

end Sys2Proof.Machine
end

