-- ==== Sys2Proof/Machine/Assembly.lean ====
section
/-! DEFINITION. The assembly syntax (spec 30_encoding.md R72, R73; the spec's decision D18, log 23): the text of an instruction, and
the instruction a text names, with the range check of R74. "No effect on the hardware model": no step uses it. -/

namespace Sys2Proof

/-! ### Writing -/

/-- The mnemonic as R2 and R18 spell it. -/
def Mnemonic.text : Mnemonic → List Char
  | .add => ['A', 'd', 'd']
  | .sub => ['S', 'u', 'b']
  | .and => ['A', 'n', 'd']
  | .or => ['O', 'r']
  | .xor => ['X', 'o', 'r']
  | .sll => ['S', 'l', 'l']
  | .srl => ['S', 'r', 'l']
  | .sra => ['S', 'r', 'a']
  | .slt => ['S', 'l', 't']
  | .sltu => ['S', 'l', 't', 'u']
  | .addi => ['A', 'd', 'd', 'i']
  | .andi => ['A', 'n', 'd', 'i']
  | .ori => ['O', 'r', 'i']
  | .xori => ['X', 'o', 'r', 'i']
  | .slli => ['S', 'l', 'l', 'i']
  | .srli => ['S', 'r', 'l', 'i']
  | .srai => ['S', 'r', 'a', 'i']
  | .slti => ['S', 'l', 't', 'i']
  | .sltiu => ['S', 'l', 't', 'i', 'u']
  | .lb => ['L', 'b']
  | .lbu => ['L', 'b', 'u']
  | .lw => ['L', 'w']
  | .sb => ['S', 'b']
  | .sw => ['S', 'w']
  | .jmp => ['J', 'm', 'p']
  | .jmpr => ['J', 'm', 'p', 'r']
  | .beq => ['B', 'e', 'q']
  | .bne => ['B', 'n', 'e']
  | .blt => ['B', 'l', 't']
  | .bge => ['B', 'g', 'e']
  | .bltu => ['B', 'l', 't', 'u']
  | .bgeu => ['B', 'g', 'e', 'u']

/-- A decimal digit. -/
def digitChar (d : Nat) : Char := Char.ofNat (48 + d)

/-- The decimal digits of a number before `acc`, at most as many as the first argument says. -/
def decimalDigits : Nat → Nat → List Char → List Char
  | 0, _, acc => acc
  | k + 1, n, acc => if n < 10 then digitChar n :: acc else decimalDigits k (n / 10) (digitChar (n % 10) :: acc)

/-- A register operand, `r0` to `r7` (R72). -/
def regText (r : Reg) : List Char := ['r', digitChar r.val]

/-- An immediate operand, `#` and the signed decimal value of the extended immediate (R72): five digits hold every 16-bit value. -/
def immText (v : Word) : List Char :=
  if v.toInt < 0 then '#' :: '-' :: decimalDigits 5 (-v.toInt).toNat [] else '#' :: decimalDigits 5 v.toInt.toNat []

/-- The operands of an instruction in the order of its format's syntax (R72). -/
def Decoded.operandTexts (d : Decoded) : List (List Char) :=
  match d.format with
  | .R => [regText d.rd, regText d.rs1, regText d.rs2]
  | .I => [regText d.rd, regText d.rs1, immText d.imm]
  | .J => [regText d.rd, immText d.imm]
  | .B => [regText d.rs1, regText d.rs2, immText d.imm]

/-- Operands separated by a comma and a space, each after a space or a comma. -/
def joinOperands : List (List Char) → List Char
  | [] => []
  | [a] => ' ' :: a
  | a :: as => ' ' :: a ++ ',' :: joinOperands as

/-- The instruction in assembly syntax (R72). -/
def Instr.text (i : Instr) : List Char := i.mnemonic.text ++ joinOperands i.toDecoded.operandTexts

/-! ### Reading -/

/-- A blank between the parts of an instruction. -/
def isBlank (c : Char) : Bool := c == ' ' || c == '\t'

/-- The text without the blanks around it. -/
def trimBlanks (t : List Char) : List Char := ((t.dropWhile isBlank).reverse.dropWhile isBlank).reverse

/-- The parts of a text between its commas. -/
def splitCommas : List Char → List (List Char)
  | [] => [[]]
  | c :: cs =>
    match splitCommas cs with
    | [] => [[c]]
    | w :: ws => if c = ',' then [] :: w :: ws else (c :: w) :: ws

/-- A letter in lower case, any other character as it is: mnemonics are read case-insensitively (R72). -/
def lowerCase (c : Char) : Char := if 65 ≤ c.toNat ∧ c.toNat ≤ 90 then Char.ofNat (c.toNat + 32) else c

/-- Two spellings of one mnemonic. -/
def sameName (a b : List Char) : Bool := a.map lowerCase == b.map lowerCase

/-- The mnemonic a word names. -/
def parseMnemonic (w : List Char) : Option Mnemonic := refOpcodeMap.toList.find? fun mn => sameName mn.text w

/-- The value of a text of one or more decimal digits. -/
def parseDecimal (t : List Char) : Option Nat :=
  if t.isEmpty then none
  else t.foldl (init := some 0) fun acc c =>
    if 48 ≤ c.toNat ∧ c.toNat ≤ 57 then acc.map fun n => 10 * n + (c.toNat - 48) else none

/-- The register a text names (R72, R20). -/
def parseReg : List Char → Option Reg
  | ['r', c] => if h : c.toNat - 48 < 8 ∧ 48 ≤ c.toNat then some ⟨c.toNat - 48, h.1⟩ else none
  | _ => none

/-- The least and the greatest immediate of a kind (R74). -/
def ImmKind.range : ImmKind → Int × Int
  | .none  => (0, 0)
  | .zext5 => (0, 31)
  | .sext5 => (-16, 15)
  | .sext8 => (-128, 127)

/-- An immediate that is in its range; another has no encoding (R74). -/
def checkedImm (k : ImmKind) (v : Int) : Option Word :=
  if k.range.1 ≤ v ∧ v ≤ k.range.2 then some (BitVec.ofInt 16 v) else none

/-- The immediate a text names, in the range of its kind (R72, R74). -/
def parseImm (k : ImmKind) : List Char → Option Word
  | '#' :: '-' :: t => (parseDecimal t).bind fun n => checkedImm k (-(n : Int))
  | '#' :: t => (parseDecimal t).bind fun n => checkedImm k n
  | _ => none

/-- The instruction of a mnemonic with its operands in the order of its format's syntax (R72). -/
def parseOperands (mn : Mnemonic) (ops : List (List Char)) : Option Instr :=
  match mn.format, ops with
  | .R, [a, b, c] =>
    (parseReg a).bind fun rd => (parseReg b).bind fun rs1 => (parseReg c).map fun rs2 =>
      (Decoded.mk mn .R rd rs1 rs2 0#16).toInstr
  | .I, [a, b, c] =>
    (parseReg a).bind fun rd => (parseReg b).bind fun rs1 => (parseImm mn.immKind c).map fun imm =>
      (Decoded.mk mn .I rd rs1 0 imm).toInstr
  | .J, [a, c] =>
    (parseReg a).bind fun rd => (parseImm mn.immKind c).map fun imm => (Decoded.mk mn .J rd 0 0 imm).toInstr
  | .B, [a, b, c] =>
    (parseReg a).bind fun rs1 => (parseReg b).bind fun rs2 => (parseImm mn.immKind c).map fun imm =>
      (Decoded.mk mn .B 0 rs1 rs2 imm).toInstr
  | _, _ => none

/-- The four pseudo spellings, each a name for one real instruction (R73). -/
def parsePseudo (w : List Char) (ops : List (List Char)) : Option Instr :=
  match ops with
  | [] =>
    if sameName w ['N', 'o', 'p'] then some Instr.nop
    else if sameName w ['H', 'a', 'l', 't'] then some Instr.halt
    else none
  | [a] => if sameName w ['J'] then (parseImm .sext8 a).map Instr.j else none
  | [a, b] =>
    if sameName w ['M', 'v'] then (parseReg a).bind fun rd => (parseReg b).map fun rs => Instr.mv rd rs else none
  | _ => none

/-- The instruction a text names: a mnemonic or a pseudo spelling, then its operands separated by commas (R72, R73). -/
def parseInstr (t : List Char) : Option Instr :=
  let t := trimBlanks t
  let w := t.takeWhile fun c => !isBlank c
  let rest := trimBlanks (t.dropWhile fun c => !isBlank c)
  let ops := if rest.isEmpty then [] else (splitCommas rest).map trimBlanks
  match parseMnemonic w with
  | some mn => parseOperands mn ops
  | none => parsePseudo w ops

/-- The word of a text under an opcode map: none where the text names no instruction or an immediate is out of range (R72 to
R74). -/
def assembleText (m : OpcodeMap) (t : List Char) : Option Word := (parseInstr t).bind (assemble m)

end Sys2Proof
end

