-- ==== Sys2Proof/Safety.lean ====
section
/-! DEFINITION. The terms claims are made in: the invariant of every state a machine reaches, and the effects the instruction rules of
the spec give (what is written, and that nothing else is). -/

namespace Sys2Proof

/-- The stores, the only instructions that write memory (R36). -/
def Instr.isStore (i : Instr) : Bool := i.mnemonic == .sb || i.mnemonic == .sw

/-- The instructions that may transfer control (R28): Jmp, Jmpr and the conditional branches. -/
def Instr.isTransfer (i : Instr) : Bool :=
  i.mnemonic.format == .B || i.mnemonic == .jmp || i.mnemonic == .jmpr

end Sys2Proof

namespace Sys2Proof.Machine

/-- What holds of the machine between any two steps: r0 is 0 (spec 10_state.md R24, "register 0 == 0 after every step"), memory is in
canonical form, the display buffer is a grid of DISPLAY_H rows of DISPLAY_W cells (R33), and the open parameters are as R8, R64 and
R125 ask. -/
structure State.Inv (s : State) : Prop where
  zero     : s.regs[0] = 0#16
  mem      : s.mem.wf = true
  display  : DisplayGrid.dims s.platform.displayW s.platform.displayH s.display = true
  platform : s.platform.wf = true

/-- The parts of the state no instruction rule names: the record handed over last, the open parameters, the host's coming actions. -/
structure SameSurroundings (s t : State) : Prop where
  retire   : t.retire = s.retire
  platform : t.platform = s.platform
  host     : t.host = s.host

/-- No byte of memory, no display cell and no entry of the memory-write list changes. -/
structure NoStore (s t : State) : Prop where
  bytes     : ∀ a : Word, t.readByte a = s.readByte a
  display   : t.display = s.display
  memWrites : t.memWrites = s.memWrites

/-- The whole effect of an instruction that writes `v` to `rd` and goes to `target`: rd holds `v` (a write to r0 is discarded, R23),
every other register keeps its value, and nothing else changes but pc. -/
structure WritesRegister (rd : Reg) (v target : Word) (s t : State) : Prop where
  regs    : ∀ r : Reg, t.readReg r = if r = rd ∧ r ≠ 0 then v else s.readReg r
  pc      : t.pc = target
  noStore : NoStore s t
  around  : SameSurroundings s t

/-- The whole effect of an instruction that only goes to `target`. -/
structure OnlyGoesTo (target : Word) (s t : State) : Prop where
  regs    : ∀ r : Reg, t.readReg r = s.readReg r
  pc      : t.pc = target
  noStore : NoStore s t
  around  : SameSurroundings s t

/-- What a store leaves unchanged, and its pc: it "writes no register" (R97). -/
structure StoreFrame (s t : State) : Prop where
  regs   : ∀ r : Reg, t.readReg r = s.readReg r
  pc     : t.pc = BitVec.ofNat 16 (s.pc.toNat + 2)
  around : SameSurroundings s t

/-- `pc +16 2` (R28, R12). -/
def addressAfter (s : State) : Word := BitVec.ofNat 16 (s.pc.toNat + 2)

/-- `pc +16 imm`, the fetch pc plus the signed byte count, mod 65536 (R104, R12). -/
def addressFrom (s : State) (imm : Word) : Word := BitVec.ofInt 16 ((s.pc.toNat : Int) + imm.toInt)

/-- R format: a word whose opcode selects `mn` decodes to `mk rd rs1 rs2`, rd = word[10:8], rs1 = word[7:5], rs2 = word[4:2] (R56,
R58). -/
def DecodesFormatR (mn : Mnemonic) (mk : Reg → Reg → Reg → Instr) : Prop :=
  ∀ (m : OpcodeMap) (w : Word), m.mnemonicAt (w.extractLsb' 11 5) = mn →
    decode m w = mk (w.extractLsb' 8 3).toFin (w.extractLsb' 5 3).toFin (w.extractLsb' 2 3).toFin

/-- I format, sign-extended: rd = word[10:8], rs1 = word[7:5], imm = sext_5(word[4:0]) (R59, R62). -/
def DecodesFormatISigned (mn : Mnemonic) (mk : Reg → Reg → Word → Instr) : Prop :=
  ∀ (m : OpcodeMap) (w : Word), m.mnemonicAt (w.extractLsb' 11 5) = mn →
    decode m w = mk (w.extractLsb' 8 3).toFin (w.extractLsb' 5 3).toFin ((w.extractLsb' 0 5).signExtend 16)

/-- I format, zero-extended: rd = word[10:8], rs1 = word[7:5], imm = zext_5(word[4:0]) (R59, R62). -/
def DecodesFormatIUnsigned (mn : Mnemonic) (mk : Reg → Reg → Word → Instr) : Prop :=
  ∀ (m : OpcodeMap) (w : Word), m.mnemonicAt (w.extractLsb' 11 5) = mn →
    decode m w = mk (w.extractLsb' 8 3).toFin (w.extractLsb' 5 3).toFin ((w.extractLsb' 0 5).setWidth 16)

/-- J format: rd = word[10:8], imm = sext_8(word[7:0]) (R60, R62). -/
def DecodesFormatJ (mn : Mnemonic) (mk : Reg → Word → Instr) : Prop :=
  ∀ (m : OpcodeMap) (w : Word), m.mnemonicAt (w.extractLsb' 11 5) = mn →
    decode m w = mk (w.extractLsb' 8 3).toFin ((w.extractLsb' 0 8).signExtend 16)

/-- B format: rs1 = word[10:8], rs2 = word[7:5], imm = sext_5(word[4:0]) (R61, R62). -/
def DecodesFormatB (mn : Mnemonic) (mk : Reg → Reg → Word → Instr) : Prop :=
  ∀ (m : OpcodeMap) (w : Word), m.mnemonicAt (w.extractLsb' 11 5) = mn →
    decode m w = mk (w.extractLsb' 8 3).toFin (w.extractLsb' 5 3).toFin ((w.extractLsb' 0 5).signExtend 16)

/-- A run of at most `fuel` steps, the host's step budget (R135): it ends early only where a step stops. -/
def run : Nat → State → Host.Outcome State Fault Refusal
  | 0, s => .next s
  | fuel + 1, s =>
    match step s with
    | .next t => run fuel t
    | .fault r => .fault r
    | .refused r => .refused r

/-- "The program has finished" as a claim may define it (R135; D16, log 15): pc points at `Jmp r0, #0`, or at a conditional branch
with immediate 0 whose condition holds. -/
def State.finished (s : State) : Bool :=
  match decode s.platform.opcodeMap s.fetchWord with
  | .jmp rd imm => rd == 0 && imm == 0#16
  | .beq rs1 rs2 imm => imm == 0#16 && s.readReg rs1 == s.readReg rs2
  | .bne rs1 rs2 imm => imm == 0#16 && s.readReg rs1 != s.readReg rs2
  | .blt rs1 rs2 imm => imm == 0#16 && decide ((s.readReg rs1).toInt < (s.readReg rs2).toInt)
  | .bge rs1 rs2 imm => imm == 0#16 && decide ((s.readReg rs1).toInt ≥ (s.readReg rs2).toInt)
  | .bltu rs1 rs2 imm => imm == 0#16 && decide ((s.readReg rs1).toNat < (s.readReg rs2).toNat)
  | .bgeu rs1 rs2 imm => imm == 0#16 && decide ((s.readReg rs1).toNat ≥ (s.readReg rs2).toNat)
  | _ => false

/-- Every image waiting in the actions has at most 65536 bytes (R137), so that none is refused. -/
def ImagesFit (acts : List HostAction) : Prop :=
  ∀ image, HostAction.loadImage image ∈ acts → image.length ≤ Config.memSize

end Sys2Proof.Machine
end

