-- ==== Sys2Proof/Certificates/Slice0/Obligations.lean ====
section
/-! DEFINITION. The statements for the provers. Each docstring names the rules of spec/ it formalises, and every clause that rests on a
decision the spec marks as its own (D<n>) or on a choice of the model (log <n>). -/

open Sys2Proof Sys2Proof.Machine

/-! ### Decoding and encoding -/

/-- One word of every family, written out from 30_encoding.md R56 and the opcode values of REF_OPCODE_MAP (R64: the spec's own choice
D2, log 1), decodes to its instruction. The words are those of 95_test_vectors.md. -/
def Obligations.WordsOfTheSpecDecode : Prop :=
  decodeTableWord 16 0b00000_011_001_010_00 = some (.add 3 1 2) ∧
  decodeTableWord 16 0b00111_011_001_010_00 = some (.sra 3 1 2) ∧
  decodeTableWord 16 0b01010_001_001_11101 = some (.addi 1 1 0xFFFD) ∧
  decodeTableWord 16 0b10010_010_001_11111 = some (.sltiu 2 1 0x001F) ∧
  decodeTableWord 16 0b10101_010_001_11110 = some (.lw 2 1 0xFFFE) ∧
  decodeTableWord 16 0b10110_110_011_11001 = some (.sb 6 3 0xFFF9) ∧
  decodeTableWord 16 0b11000_111_10000000 = some (.jmp 7 0xFF80) ∧
  decodeTableWord 16 0b11001_111_001_00011 = some (.jmpr 7 1 3) ∧
  decodeTableWord 16 0b11110_101_010_10101 = some (.bltu 5 2 0xFFF5)

/-- R57, whole: every one of the 32 opcode values is assigned to one instruction and every instruction has one value, whatever
bijection OPCODE_MAP is, and the field `word[15:11]` alone selects the instruction. -/
def Obligations.OpcodeAloneSelectsTheInstruction : Prop :=
  ∀ m : OpcodeMap, m.bijective →
    (∀ mn : Mnemonic, ∃! o : BitVec 5, m.mnemonicAt o = mn) ∧
    (∀ w : Word, (decode m w).mnemonic = m.mnemonicAt (w.extractLsb' 11 5)) ∧
    (∀ w w' : Word, w.extractLsb' 11 5 = w'.extractLsb' 11 5 → (decode m w).mnemonic = (decode m w').mnemonic)

/-- The decoded record of 30_encoding.md section 5, every field as a number of the word, for every opcode map. The 0 in the unused rd
of B format and imm of R format is the spec's decision D4 (log 4); the formats of loads, stores and jumps are its D3 (log 3). -/
def Obligations.DecodedRecordFields : Prop :=
  ∀ (m : OpcodeMap) (w : Word),
    let mn := m.mnemonicAt (w.extractLsb' 11 5)
    let d := (decode m w).toDecoded
    let hi := w.toNat / 256 % 8
    let mid := w.toNat / 32 % 8
    let low := w.toNat / 4 % 8
    let f5 := w.toNat % 32
    let f8 := w.toNat % 256
    let signed5 : Int := if f5 < 16 then f5 else (f5 : Int) - 32
    let signed8 : Int := if f8 < 128 then f8 else (f8 : Int) - 256
    d = decodeRecord m w ∧ d.mnemonic = mn ∧ d.format = mn.format ∧
    (mn.format = .R → d.rd.val = hi ∧ d.rs1.val = mid ∧ d.rs2.val = low ∧ d.imm = 0#16) ∧
    (mn.format = .I → d.rd.val = hi ∧ d.rs1.val = mid ∧ d.rs2 = 0 ∧
      d.imm.toInt = if mn ∈ [Mnemonic.andi, .ori, .xori, .slli, .srli, .srai, .sltiu] then (f5 : Int) else signed5) ∧
    (mn.format = .J → d.rd.val = hi ∧ d.rs1 = 0 ∧ d.rs2 = 0 ∧ d.imm.toInt = signed8) ∧
    (mn.format = .B → d.rd = 0 ∧ d.rs1.val = hi ∧ d.rs2.val = mid ∧ d.imm.toInt = signed5)

/-- The field round trip of 30_encoding.md section 7 for every well-formed instruction and every bijection OPCODE_MAP: decoding the
encoded word gives the instruction back. -/
def Obligations.DecodeOfEncodeIsTheInstruction : Prop :=
  ∀ (m : OpcodeMap) (i : Instr), m.bijective → i.wf = true → decode m (encode m i) = i

/-- The other direction of 30_encoding.md section 7: a decoded word is well formed, and encoding it gives the word back, "except that
R-format bits [1:0] come back as 00". -/
def Obligations.EncodeOfDecodeIsTheWord : Prop :=
  ∀ (m : OpcodeMap) (w : Word), m.bijective →
    (decode m w).wf = true ∧
    encode m (decode m w) = if (decode m w).toDecoded.format = .R then w &&& 0xFFFC#16 else w

/-- Two words of R format that differ in bits [1:0] only decode to the same instruction: the spec's decision D5 (log 5). -/
def Obligations.ReservedBitsAreIgnored : Prop :=
  ∀ (m : OpcodeMap) (w w' : Word), w.extractLsb' 2 14 = w'.extractLsb' 2 14 →
    (decode m w).toDecoded.format = .R → decode m w = decode m w'

/-- 30_encoding.md section 8: an assembler refuses exactly the instructions that are no word's, those whose immediate is out of range,
and the word it writes decodes to the instruction. -/
def Obligations.AssemblerRefusesExactlyWhatNoWordIs : Prop :=
  ∀ (m : OpcodeMap) (i : Instr), m.bijective →
    (assemble m i = none ↔ ∀ w : Word, decode m w ≠ i) ∧ (∀ w, assemble m i = some w → decode m w = i)

/-- The assembly syntax of 30_encoding.md section 8 (the spec's decision D18, log 23): a text names well-formed instructions only, and
the text written for a well-formed instruction names it and assembles to its word. -/
def Obligations.AssemblyTextRoundTrip : Prop :=
  (∀ (t : List Char) (i : Instr), parseInstr t = some i → i.wf = true) ∧
  ∀ (m : OpcodeMap) (i : Instr), i.wf = true →
    parseInstr i.text = some i ∧ assembleText m i.text = some (encode m i)

/-! ### The step -/

/-- A step runs the instruction that the two bytes at pc decode to (20_memory.md section 3; the fetch is the spec's decision D8,
log 8), from a state with an empty memory-write list; with no host action waiting, what the step adds is r0 forced to 0, the retire
record, and the list moved into it (log 17). -/
def Obligations.StepRunsTheDecodedInstruction : Prop :=
  ∀ (s : State) (i : Instr),
    decode s.platform.opcodeMap (s.readByte (s.pc + 1#16) ++ s.readByte s.pc) = i →
      step s = finishStep s (exec i { s with memWrites := [] }) ∧
      (s.host = [] → ∀ t, exec i { s with memWrites := [] } = .next t →
        step s = .next
          { t with regs := t.regs.set 0 0#16, retire := some (retireRecord s t.postStep), memWrites := [] })

/-- The word a step fetches: the byte at pc is the low one, the byte at pc + 1 mod 65536 the high one, at an odd pc as at an even one
(20_memory.md sections 3 and 4; the spec's decision D8, log 8). -/
def Obligations.FetchIsLittleEndianAtEveryPc : Prop :=
  ∀ s : State, s.fetchWord.toNat =
    (s.readByte s.pc).toNat + 256 * (s.readByte (BitVec.ofNat 16 ((s.pc.toNat + 1) % 65536))).toNat

/-- 60_exceptions.md section 1: decoding is total, no instruction traps, faults or stops the engine, in any state; so a step whose
boundary holds no overlong image (R137) answers a next state, and no step faults. -/
def Obligations.NoInstructionTrapsFaultsOrStops : Prop :=
  (∀ (m : OpcodeMap) (lo hi : Byte), ∃ i, decodeBytes m [lo, hi] = .ok (i, [])) ∧
  (∀ (i : Instr) (s : State), ∃ t, exec i s = .next t) ∧
  (∀ s : State, (∀ acts, s.host.head? = some acts → ImagesFit acts) → ∃ t, step s = .next t) ∧
  (∀ (s : State) (r : Fault), step s ≠ .fault r)

/-- Reset meets the invariant. The values of the open parameters at reset are the model's choice (log 1, 2, 10, 12, 14). -/
def Obligations.ResetMeetsTheInvariant : Prop := State.reset.Inv

/-- From every state that meets the invariant, whatever the host does at the boundary, a step gives a state that meets it: r0 is 0
(10_state.md section 1), memory in canonical form, the display an H×W grid, the open parameters legal. -/
def Obligations.EveryStepKeepsTheInvariant : Prop := ∀ s t : State, s.Inv → step s = .next t → t.Inv

/-- An image load brings any state with legal parameters into the invariant: every run begins with one (70_reset_and_hazards.md
section 1; the spec's decisions D13 to D15 and D22, log 2, 13, 14, 20). -/
def Obligations.ImageLoadEstablishesTheInvariant : Prop :=
  ∀ (s t : State) (image : List Byte), s.platform.wf = true → loadImage image s = .next t → t.Inv

/-- After every step, from any state at all, register 0 is 0 and reads 0 (10_state.md section 1). -/
def Obligations.RegisterZeroIsZeroAfterEveryStep : Prop :=
  ∀ s t : State, step s = .next t → t.regs[0] = 0#16 ∧ t.readReg 0 = 0#16

/-! ### Reset and the host -/

/-- State.reset: pc and r0 are 0, the values 10_state.md section 6 states; memory reads 0x00 (the spec's decision D14, log 13); r1 to
r7 and the display hold REG_INIT and DISPLAY_INIT of its parameters, whose values are the model's choice (log 2, 14); and it is the
image load of an empty image (log 20). -/
def Obligations.ResetIsTheEmptyImageLoad : Prop :=
  State.reset.pc = 0#16 ∧ State.reset.readReg 0 = 0#16 ∧ (∀ a : Word, State.reset.readByte a = 0#8) ∧
  (∀ k : Fin 7, State.reset.readReg k.succ = State.reset.platform.regInit[k]) ∧
  State.reset.display = State.reset.platform.displayInit ∧ loadImage [] State.reset = .next State.reset

/-- Image load for every image, every REG_INIT and every DISPLAY_INIT (70_reset_and_hazards.md section 1): pc 0, r0 0, r1 to r7
REG_INIT, the display DISPLAY_INIT, the image's bytes from address 0 and 0x00 elsewhere, no retire record; an image over 65536 bytes
is refused. Zero-fill and the size bound are the spec's decision D14 (log 13). -/
def Obligations.ImageLoadSetsTheWholeState : Prop :=
  ∀ (s : State) (image : List Byte),
    (image.length ≤ 65536 → ∃ t, loadImage image s = .next t ∧ t.pc = 0#16 ∧ t.readReg 0 = 0#16 ∧
      (∀ k : Fin 7, t.readReg k.succ = s.platform.regInit[k]) ∧
      (∀ a : Word, t.readByte a = image.getD a.toNat 0#8) ∧
      t.display = s.platform.displayInit ∧ t.memWrites = s.memWrites ∧ SameSurroundings s t) ∧
    (65536 < image.length → loadImage image s = .refused .imageTooLong)

/-- The host's input write changes the byte at INPUT_ADDR and nothing else: no other byte, no register, not pc, and not the display even
if INPUT_ADDR is in its window (60_exceptions.md section 4; the spec's decisions D11 and D12, log 11, 12). -/
def Obligations.InputWriteChangesOneByte : Prop :=
  ∀ (s : State) (v : Byte),
    (∀ a : Word, (inputWrite v s).readByte a = if a = s.platform.inputAddr then v else s.readByte a) ∧
    (∀ r : Reg, (inputWrite v s).readReg r = s.readReg r) ∧ (inputWrite v s).pc = s.pc ∧
    (inputWrite v s).display = s.display ∧ (inputWrite v s).memWrites = s.memWrites ∧
    SameSurroundings s (inputWrite v s)

/-- The host acts between steps only: a step with an input write waiting at its boundary is the step without it, followed by the write
(60_exceptions.md section 5; the schedule is the model's own field, log 12, log 26). -/
def Obligations.HostActsAfterTheWholeStep : Prop :=
  ∀ (s t : State) (v : Byte) (rest : List (List HostAction)),
    step { s with host := [] } = .next t →
      step { s with host := [.inputWrite v] :: rest } = .next { inputWrite v t with host := rest }

/-! ### Whole-machine rules -/

/-- The table of 10_state.md section 1: an instruction changes no register but its rd; stores and conditional branches change none. -/
def Obligations.OnlyTheDestinationRegisterChanges : Prop :=
  ∀ (i : Instr) (s : State), ∃ t, exec i s = .next t ∧ ∀ r : Reg, i.dest ≠ some r → t.readReg r = s.readReg r

/-- R23, whole: an instruction whose destination is r0 changes no register, and r0 still holds 0; and after a whole step that runs such
an instruction, with no host action at its boundary, every register reads as before. -/
def Obligations.WriteToRegisterZeroIsDiscarded : Prop :=
  (∀ (i : Instr) (s : State), i.dest = some 0 →
    ∃ t, exec i s = .next t ∧ t.readReg 0 = 0#16 ∧ ∀ r : Reg, t.readReg r = s.readReg r) ∧
  (∀ s t : State, s.host = [] → (decode s.platform.opcodeMap s.fetchWord).dest = some 0 → step s = .next t →
    t.regs[0] = 0#16 ∧ ∀ r : Reg, t.readReg r = s.readReg r)

/-- No instruction but Sb and Sw touches memory, the display or the memory-write list (20_memory.md section 1), and no instruction at all
touches the open parameters, the host's schedule or the record handed over last. -/
def Obligations.OnlyStoresTouchMemoryAndDisplay : Prop :=
  ∀ (i : Instr) (s : State), ∃ t, exec i s = .next t ∧ SameSurroundings s t ∧
    (i.mnemonic ≠ .sb → i.mnemonic ≠ .sw → NoStore s t ∧ t.mem = s.mem)

/-- Every instruction but Jmp, Jmpr and the conditional branches sets pc to pc + 2 mod 65536 (10_state.md section 2; 90_conflicts.md
C2). -/
def Obligations.NonTransferAdvancesByTwo : Prop :=
  ∀ (i : Instr) (s : State), i.isTransfer = false → ∃ t, exec i s = .next t ∧ t.pc = addressAfter s

/-- 42_control.md section 4: from an even pc, an instruction whose offset (if it transfers control) is even leaves pc even. -/
def Obligations.EvenOffsetsKeepPcEven : Prop :=
  ∀ (i : Instr) (s t : State), exec i s = .next t → s.pc.toNat % 2 = 0 →
    (i.isTransfer = true → i.toDecoded.imm.toNat % 2 = 0) → t.pc.toNat % 2 = 0

/-- What the display holds never reaches a register, pc, memory or the retire record: a step from a state that differs in the display
only gives a state that differs in the display only (loads read the memory array, the spec's decision D11, log 11). -/
def Obligations.DisplayNeverFlowsBack : Prop :=
  ∀ (s t : State) (g : DisplayGrid), step s = .next t →
    ∃ u, step { s with display := g } = .next u ∧ { u with display := t.display } = t

/-! ### Integer instructions -/

/-- R78, R79, R88: Add, Sub and Addi, with their encodings. The sum or difference is exact, then reduced mod 2^16. -/
def Obligations.AddSubAddiResults : Prop :=
  DecodesFormatR .add .add ∧ DecodesFormatR .sub .sub ∧ DecodesFormatISigned .addi .addi ∧
  ∀ (s : State) (rd rs1 rs2 : Reg) (imm : Word),
    (∃ t, exec (.add rd rs1 rs2) s = .next t ∧
      WritesRegister rd (BitVec.ofNat 16 ((s.readReg rs1).toNat + (s.readReg rs2).toNat)) (addressAfter s) s t) ∧
    (∃ t, exec (.sub rd rs1 rs2) s = .next t ∧
      WritesRegister rd (BitVec.ofInt 16 ((s.readReg rs1).toNat - (s.readReg rs2).toNat)) (addressAfter s) s t) ∧
    (∃ t, exec (.addi rd rs1 imm) s = .next t ∧
      WritesRegister rd (BitVec.ofInt 16 ((s.readReg rs1).toNat + imm.toInt)) (addressAfter s) s t)

/-- R80 to R82: And, Or and Xor, bit by bit, with their encodings. -/
def Obligations.AndOrXorResults : Prop :=
  DecodesFormatR .and .and ∧ DecodesFormatR .or .or ∧ DecodesFormatR .xor .xor ∧
  ∀ (s : State) (rd rs1 rs2 : Reg),
    (∃ t v, exec (.and rd rs1 rs2) s = .next t ∧ WritesRegister rd v (addressAfter s) s t ∧
      ∀ k : Nat, v.getLsbD k = ((s.readReg rs1).getLsbD k && (s.readReg rs2).getLsbD k)) ∧
    (∃ t v, exec (.or rd rs1 rs2) s = .next t ∧ WritesRegister rd v (addressAfter s) s t ∧
      ∀ k : Nat, v.getLsbD k = ((s.readReg rs1).getLsbD k || (s.readReg rs2).getLsbD k)) ∧
    (∃ t v, exec (.xor rd rs1 rs2) s = .next t ∧ WritesRegister rd v (addressAfter s) s t ∧
      ∀ k : Nat, v.getLsbD k = ((s.readReg rs1).getLsbD k ^^ (s.readReg rs2).getLsbD k))

/-- R89 to R91: Andi, Ori and Xori, bit by bit, with their zero-extending encodings; the result of a decoded Andi has bits [15:5] 0,
and a decoded Ori or Xori leaves bits [15:5] of x[rs1]. -/
def Obligations.AndiOriXoriResults : Prop :=
  DecodesFormatIUnsigned .andi .andi ∧ DecodesFormatIUnsigned .ori .ori ∧ DecodesFormatIUnsigned .xori .xori ∧
  ∀ (s : State) (rd rs1 : Reg) (imm : Word),
    (∃ t v, exec (.andi rd rs1 imm) s = .next t ∧ WritesRegister rd v (addressAfter s) s t ∧
      (∀ k : Nat, v.getLsbD k = ((s.readReg rs1).getLsbD k && imm.getLsbD k)) ∧
      (imm.toNat < 32 → v.toNat < 32)) ∧
    (∃ t v, exec (.ori rd rs1 imm) s = .next t ∧ WritesRegister rd v (addressAfter s) s t ∧
      (∀ k : Nat, v.getLsbD k = ((s.readReg rs1).getLsbD k || imm.getLsbD k)) ∧
      (imm.toNat < 32 → v.toNat / 32 = (s.readReg rs1).toNat / 32)) ∧
    (∃ t v, exec (.xori rd rs1 imm) s = .next t ∧ WritesRegister rd v (addressAfter s) s t ∧
      (∀ k : Nat, v.getLsbD k = ((s.readReg rs1).getLsbD k ^^ imm.getLsbD k)) ∧
      (imm.toNat < 32 → v.toNat / 32 = (s.readReg rs1).toNat / 32))

/-- Sll, Srl and Sra (40_integer.md section 2): the exact product or floor quotient by 2^sh, with sh = x[rs2] mod 32. The amount's bits
and the results for 16..31 are the spec's decision D7 (log 7). -/
def Obligations.RegisterShiftResults : Prop :=
  DecodesFormatR .sll .sll ∧ DecodesFormatR .srl .srl ∧ DecodesFormatR .sra .sra ∧
  ∀ (s : State) (rd rs1 rs2 : Reg),
    let sh := (s.readReg rs2).toNat % 32
    (∃ t, exec (.sll rd rs1 rs2) s = .next t ∧
      WritesRegister rd (BitVec.ofNat 16 ((s.readReg rs1).toNat * 2 ^ sh)) (addressAfter s) s t) ∧
    (∃ t, exec (.srl rd rs1 rs2) s = .next t ∧
      WritesRegister rd (BitVec.ofNat 16 ((s.readReg rs1).toNat / 2 ^ sh)) (addressAfter s) s t) ∧
    (∃ t, exec (.sra rd rs1 rs2) s = .next t ∧
      WritesRegister rd (BitVec.ofInt 16 ((s.readReg rs1).toInt / (2 : Int) ^ sh)) (addressAfter s) s t)

/-- Slli, Srli and Srai (40_integer.md section 3): the same with sh the zero-extended immediate. Results for 16..31: the spec's decision
D7 (log 7). -/
def Obligations.ImmediateShiftResults : Prop :=
  DecodesFormatIUnsigned .slli .slli ∧ DecodesFormatIUnsigned .srli .srli ∧ DecodesFormatIUnsigned .srai .srai ∧
  ∀ (s : State) (rd rs1 : Reg) (imm : Word),
    (∃ t, exec (.slli rd rs1 imm) s = .next t ∧
      WritesRegister rd (BitVec.ofNat 16 ((s.readReg rs1).toNat * 2 ^ imm.toNat)) (addressAfter s) s t) ∧
    (∃ t, exec (.srli rd rs1 imm) s = .next t ∧
      WritesRegister rd (BitVec.ofNat 16 ((s.readReg rs1).toNat / 2 ^ imm.toNat)) (addressAfter s) s t) ∧
    (∃ t, exec (.srai rd rs1 imm) s = .next t ∧
      WritesRegister rd (BitVec.ofInt 16 ((s.readReg rs1).toInt / (2 : Int) ^ imm.toNat)) (addressAfter s) s t)

/-- The corner amounts of 40_integer.md section 1: amount 0 copies x[rs1]; 16 to 31 give 0 for Sll and Srl, and the sign fill for Sra
(the spec's decision D7, log 7). -/
def Obligations.ShiftAmountCorners : Prop :=
  ∀ (s : State) (rd rs1 rs2 : Reg), rd ≠ 0 →
    ((s.readReg rs2).toNat % 32 = 0 → ∀ i ∈ [Instr.sll rd rs1 rs2, .srl rd rs1 rs2, .sra rd rs1 rs2],
      ∃ t, exec i s = .next t ∧ t.readReg rd = s.readReg rs1) ∧
    (16 ≤ (s.readReg rs2).toNat % 32 →
      (∀ i ∈ [Instr.sll rd rs1 rs2, .srl rd rs1 rs2], ∃ t, exec i s = .next t ∧ t.readReg rd = 0#16) ∧
      (∃ t, exec (.sra rd rs1 rs2) s = .next t ∧
        t.readReg rd = if 0x8000 ≤ (s.readReg rs1).toNat then 0xFFFF#16 else 0#16))

/-- R86, R87: Slt and Sltu, with their encodings. -/
def Obligations.SltSltuResults : Prop :=
  DecodesFormatR .slt .slt ∧ DecodesFormatR .sltu .sltu ∧
  ∀ (s : State) (rd rs1 rs2 : Reg),
    (∃ t, exec (.slt rd rs1 rs2) s = .next t ∧
      WritesRegister rd (if (s.readReg rs1).toInt < (s.readReg rs2).toInt then 1#16 else 0#16) (addressAfter s) s t) ∧
    (∃ t, exec (.sltu rd rs1 rs2) s = .next t ∧
      WritesRegister rd (if (s.readReg rs1).toNat < (s.readReg rs2).toNat then 1#16 else 0#16) (addressAfter s) s t)

/-- R95, R96: Slti against the sign-extended and Sltiu against the zero-extended immediate, with their encodings. -/
def Obligations.SltiSltiuResults : Prop :=
  DecodesFormatISigned .slti .slti ∧ DecodesFormatIUnsigned .sltiu .sltiu ∧
  ∀ (s : State) (rd rs1 : Reg) (imm : Word),
    (∃ t, exec (.slti rd rs1 imm) s = .next t ∧
      WritesRegister rd (if (s.readReg rs1).toInt < imm.toInt then 1#16 else 0#16) (addressAfter s) s t) ∧
    (∃ t, exec (.sltiu rd rs1 imm) s = .next t ∧
      WritesRegister rd (if (s.readReg rs1).toNat < imm.toNat then 1#16 else 0#16) (addressAfter s) s t)

/-! ### Loads and stores -/

/-- R98: the effective address is the unsigned base plus the signed 5-bit displacement, mod 65536, and no load or store modifies its base
register, unless the base is the destination of a load. -/
def Obligations.EffectiveAddressIsBasePlusSignedDisplacement : Prop :=
  (∀ (s : State) (rs1 : Reg) (f : BitVec 5),
    -16 ≤ f.toInt ∧ f.toInt ≤ 15 ∧
    ((effectiveAddress s rs1 (f.signExtend 16)).toNat : Int) = ((s.readReg rs1).toNat + f.toInt) % 65536) ∧
  (∀ (s : State) (rd rs1 : Reg) (imm : Word),
    (rd ≠ rs1 → ∀ i ∈ [Instr.lb rd rs1 imm, .lbu rd rs1 imm, .lw rd rs1 imm],
      ∃ t, exec i s = .next t ∧ t.readReg rs1 = s.readReg rs1) ∧
    (∀ i ∈ [Instr.sb rd rs1 imm, .sw rd rs1 imm], ∃ t, exec i s = .next t ∧ t.readReg rs1 = s.readReg rs1))

/-- Lb and Lbu (41_load_store.md section 2): the byte at the effective address, read from memory, sign- or zero-extended. The I format is
the spec's decision D3 (log 3), the read of memory in the display window its D11 (log 11). -/
def Obligations.LbLbuResults : Prop :=
  DecodesFormatISigned .lb .lb ∧ DecodesFormatISigned .lbu .lbu ∧
  ∀ (s : State) (rd rs1 : Reg) (imm : Word),
    let b := (s.readByte (effectiveAddress s rs1 imm)).toNat
    (∃ t, exec (.lb rd rs1 imm) s = .next t ∧
      WritesRegister rd (BitVec.ofNat 16 (if b < 0x80 then b else 0xFF00 + b)) (addressAfter s) s t) ∧
    (∃ t, exec (.lbu rd rs1 imm) s = .next t ∧ WritesRegister rd (BitVec.ofNat 16 b) (addressAfter s) s t)

/-- Lw (41_load_store.md section 2): the byte at the effective address is the low one, the byte at the next address mod 65536 the high
one, at any address. Format: the spec's decision D3 (log 3); display window: its D11 (log 11). -/
def Obligations.LwResult : Prop :=
  DecodesFormatISigned .lw .lw ∧
  ∀ (s : State) (rd rs1 : Reg) (imm : Word),
    let ea := effectiveAddress s rs1 imm
    let lo := (s.readByte ea).toNat
    let hi := (s.readByte (BitVec.ofNat 16 (ea.toNat + 1))).toNat
    ∃ t, exec (.lw rd rs1 imm) s = .next t ∧ WritesRegister rd (BitVec.ofNat 16 (hi * 256 + lo)) (addressAfter s) s t

/-- Sb (41_load_store.md section 3): the byte at the effective address becomes the low byte of the register in the rd field, is offered to
the display and listed; no other byte and no register changes. Format: the spec's decision D3 (log 3). -/
def Obligations.SbEffect : Prop :=
  DecodesFormatISigned .sb .sb ∧
  ∀ (s : State) (rd rs1 : Reg) (imm : Word),
    let ea := effectiveAddress s rs1 imm
    let d : Byte := BitVec.ofNat 8 ((s.readReg rd).toNat % 256)
    ∃ t, exec (.sb rd rs1 imm) s = .next t ∧ StoreFrame s t ∧
      (∀ a : Word, t.readByte a = if a = ea then d else s.readByte a) ∧
      t.display = s.platform.offer ea d s.display ∧
      t.memWrites = s.memWrites ++ [⟨ea, s.readByte ea, d⟩]

/-- Sw (41_load_store.md section 3): the low byte goes to the effective address, then the high byte to the next address mod 65536; each is
offered to the display and listed in that order. Format: the spec's decision D3 (log 3); two offered bytes and the wrap of the second:
its D24 and N7 (log 22). -/
def Obligations.SwEffect : Prop :=
  DecodesFormatISigned .sw .sw ∧
  ∀ (s : State) (rd rs1 : Reg) (imm : Word),
    let ea := effectiveAddress s rs1 imm
    let ea' : Word := BitVec.ofNat 16 (ea.toNat + 1)
    let lo : Byte := BitVec.ofNat 8 ((s.readReg rd).toNat % 256)
    let hi : Byte := BitVec.ofNat 8 ((s.readReg rd).toNat / 256)
    ∃ t, exec (.sw rd rs1 imm) s = .next t ∧ StoreFrame s t ∧
      (∀ a : Word, t.readByte a = if a = ea then lo else if a = ea' then hi else s.readByte a) ∧
      t.display = s.platform.offer ea' hi (s.platform.offer ea lo s.display) ∧
      t.memWrites = s.memWrites ++ [⟨ea, s.readByte ea, lo⟩, ⟨ea', s.readByte ea', hi⟩]

/-- "Sw to address A then Lw from A reproduces the stored 16-bit value", at every address, 0xFFFF among them (41_load_store.md section 3;
its wrap is the spec's inference N7, log 22). -/
def Obligations.SwThenLwReturnsTheWord : Prop :=
  ∀ (s : State) (rd rd' rs1 : Reg) (imm : Word), rd' ≠ 0 →
    ∃ t u, exec (.sw rd rs1 imm) s = .next t ∧ exec (.lw rd' rs1 imm) t = .next u ∧ u.readReg rd' = s.readReg rd

/-- The mixed-width view of 20_memory.md section 2: after Sw of v at a, Lbu at a gives v[7:0] and at a + 1 v[15:8]; after Sb of d at a and
Sb of e at a + 1, Lw at a gives {e, d}. -/
def Obligations.MixedWidthViewIsConsistent : Prop :=
  ∀ (s : State) (r1 r2 rd rs1 : Reg) (imm : Word), rd ≠ 0 →
    (∃ t u v, exec (.sw r1 rs1 imm) s = .next t ∧ exec (.lbu rd rs1 imm) t = .next u ∧
      exec (.lbu rd rs1 (imm + 1#16)) t = .next v ∧
      (u.readReg rd).toNat = (s.readReg r1).toNat % 256 ∧ (v.readReg rd).toNat = (s.readReg r1).toNat / 256) ∧
    (∃ t u v, exec (.sb r1 rs1 imm) s = .next t ∧ exec (.sb r2 rs1 (imm + 1#16)) t = .next u ∧
      exec (.lw rd rs1 imm) u = .next v ∧
      (v.readReg rd).toNat = (s.readReg r2).toNat % 256 * 256 + (s.readReg r1).toNat % 256)

/-- Repeating a store leaves memory and display as the first one left them (20_memory.md section 5); memory in canonical form, so that
equal contents are equal data. -/
def Obligations.RepeatedStoreChangesNothing : Prop :=
  ∀ (s : State) (rd rs1 : Reg) (imm : Word), s.mem.wf = true →
    ∀ i ∈ [Instr.sb rd rs1 imm, .sw rd rs1 imm],
      ∃ t u, exec i s = .next t ∧ exec i t = .next u ∧ u.mem = t.mem ∧ u.display = t.display

/-! ### Control transfer -/

/-- Jmp (42_control.md section 2): the target is the fetch pc plus the signed byte count, the link the address of the next instruction,
both mod 65536. The J format is the spec's decision D3 (log 3). -/
def Obligations.JmpEffect : Prop :=
  DecodesFormatJ .jmp .jmp ∧
  ∀ (s : State) (rd : Reg) (imm : Word),
    ∃ t, exec (.jmp rd imm) s = .next t ∧ WritesRegister rd (addressAfter s) (addressFrom s imm) s t

/-- Jmpr (42_control.md section 2): the target is x[rs1] plus the signed immediate, mod 65536, with bit 0 cleared, from the value rs1 has
before the link is written (the spec's decision D6, log 6); so it is even. Format: its D3 (log 3). -/
def Obligations.JmprEffect : Prop :=
  DecodesFormatISigned .jmpr .jmpr ∧
  ∀ (s : State) (rd rs1 : Reg) (imm : Word),
    ∃ t target, exec (.jmpr rd rs1 imm) s = .next t ∧ WritesRegister rd (addressAfter s) target s t ∧
      (target.toNat : Int) = (((s.readReg rs1).toNat + imm.toInt) % 65536) / 2 * 2

/-- R107, R108: Beq and Bne, taken and not taken, with their encodings. -/
def Obligations.BeqBneEffect : Prop :=
  DecodesFormatB .beq .beq ∧ DecodesFormatB .bne .bne ∧
  ∀ (s : State) (rs1 rs2 : Reg) (imm : Word),
    (∃ t, exec (.beq rs1 rs2 imm) s = .next t ∧
      OnlyGoesTo (if (s.readReg rs1).toNat = (s.readReg rs2).toNat then addressFrom s imm else addressAfter s) s t) ∧
    (∃ t, exec (.bne rs1 rs2 imm) s = .next t ∧
      OnlyGoesTo (if (s.readReg rs1).toNat = (s.readReg rs2).toNat then addressAfter s else addressFrom s imm) s t)

/-- R109, R110: Blt and Bge compare signed values, with their encodings. -/
def Obligations.BltBgeEffect : Prop :=
  DecodesFormatB .blt .blt ∧ DecodesFormatB .bge .bge ∧
  ∀ (s : State) (rs1 rs2 : Reg) (imm : Word),
    (∃ t, exec (.blt rs1 rs2 imm) s = .next t ∧
      OnlyGoesTo (if (s.readReg rs1).toInt < (s.readReg rs2).toInt then addressFrom s imm else addressAfter s) s t) ∧
    (∃ t, exec (.bge rs1 rs2 imm) s = .next t ∧
      OnlyGoesTo (if (s.readReg rs1).toInt ≥ (s.readReg rs2).toInt then addressFrom s imm else addressAfter s) s t)

/-- R111, R112: Bltu and Bgeu compare unsigned values, with their encodings. -/
def Obligations.BltuBgeuEffect : Prop :=
  DecodesFormatB .bltu .bltu ∧ DecodesFormatB .bgeu .bgeu ∧
  ∀ (s : State) (rs1 rs2 : Reg) (imm : Word),
    (∃ t, exec (.bltu rs1 rs2 imm) s = .next t ∧
      OnlyGoesTo (if (s.readReg rs1).toNat < (s.readReg rs2).toNat then addressFrom s imm else addressAfter s) s t) ∧
    (∃ t, exec (.bgeu rs1 rs2 imm) s = .next t ∧
      OnlyGoesTo (if (s.readReg rs1).toNat ≥ (s.readReg rs2).toNat then addressFrom s imm else addressAfter s) s t)

/-- Call and return (42_control.md section 4): a call by Jmp or Jmpr into rL ≠ r0, and later `Jmpr r0, rL, #0` from any state that still
holds the link in rL, goes to the instruction after the call; a call from an odd address returns one byte lower. -/
def Obligations.ReturnGoesToTheLink : Prop :=
  ∀ (s : State) (rL rs : Reg) (off : Word), rL ≠ 0 → ∀ i ∈ [Instr.jmp rL off, .jmpr rL rs off],
    ∃ t, exec i s = .next t ∧ ∀ u : State, u.readReg rL = t.readReg rL →
      ∃ v, exec (.jmpr 0 rL 0#16) u = .next v ∧
        (v.pc.toNat : Int) = (s.pc.toNat + 2) % 65536 - s.pc.toNat % 2

/-! ### The display controller -/

/-- 60_exceptions.md section 4, for every DISPLAY_BASE, W and H: the byte Sb stores at address a changes the one cell
(off div 2 mod W, off div 2 div W), off = a - DISPLAY_BASE, if 0 <= off < 2WH: its character if off is even, else its background
(high nibble) and foreground (low nibble); no other cell, and none if a is outside. The window's arithmetic is the spec's decision D10
(log 10). -/
def Obligations.StoredByteDrivesOneDisplayCell : Prop :=
  ∀ (s : State) (rd rs1 : Reg) (imm : Word),
    let a := (effectiveAddress s rs1 imm).toNat
    let base := s.platform.displayBase.toNat
    let w := s.platform.displayW
    let h := s.platform.displayH
    let d := (s.readReg rd).toNat % 256
    ∃ t, exec (.sb rd rs1 imm) s = .next t ∧ ∀ x y : Nat,
      t.display.cell x y =
        if base ≤ a ∧ a < base + 2 * w * h ∧ x = (a - base) / 2 % w ∧ y = (a - base) / 2 / w then
          (s.display.cell x y).map fun c =>
            if (a - base) % 2 = 0 then { c with character := BitVec.ofNat 8 d }
            else { c with background := BitVec.ofNat 4 (d / 16), foreground := BitVec.ofNat 4 (d % 16) }
        else s.display.cell x y

/-- The character write of 60_exceptions.md section 4: in a state that meets the invariant, a store byte in the window at an even in-cell
offset sets the character of the cell it addresses, which exists, and nothing else of the cell (window arithmetic: the spec's decision
D10, log 10). The bytes a store offers are Sb's one and Sw's two: that Sw offers each of its bytes separately, the low one first, the
second at ea + 1 mod 65536, is the spec's decision D24 and its inference N7 (log 22, DESIGN CHOICE), not R126. -/
def Obligations.EvenOffsetWritesTheCharacterOnly : Prop :=
  (∀ (s : State) (a : Word) (d : Byte), s.Inv →
    let off := a.toNat - s.platform.displayBase.toNat
    let x := off / 2 % s.platform.displayW
    let y := off / 2 / s.platform.displayW
    s.platform.inWindow a = true → off % 2 = 0 →
      x < s.platform.displayW ∧ y < s.platform.displayH ∧
      ∃ c, s.display.cell x y = some c ∧ (s.byteWrite a d).display.cell x y = some { c with character := d }) ∧
  (∀ (s : State) (rd rs1 : Reg) (imm : Word),
    let ea := effectiveAddress s rs1 imm
    let lo := (s.readReg rd).setWidth 8
    let hi := (s.readReg rd).extractLsb' 8 8
    (∃ t, exec (.sb rd rs1 imm) s = .next t ∧ t.display = (s.byteWrite ea lo).display) ∧
    (∃ t, exec (.sw rd rs1 imm) s = .next t ∧ t.display = ((s.byteWrite ea lo).byteWrite (ea + 1#16) hi).display))

/-- An Sw at an even window address writes the character and the attribute of one cell (60_exceptions.md section 4; the spec's decision D24,
log 22). -/
def Obligations.SwAtEvenWindowAddressWritesOneWholeCell : Prop :=
  ∀ (s : State) (rd rs1 : Reg) (imm : Word), s.Inv →
    let ea := effectiveAddress s rs1 imm
    let off := ea.toNat - s.platform.displayBase.toNat
    let cx := off / 2 % s.platform.displayW
    let cy := off / 2 / s.platform.displayW
    let v := (s.readReg rd).toNat
    s.platform.inWindow ea = true → off % 2 = 0 →
      ∃ t, exec (.sw rd rs1 imm) s = .next t ∧
        t.display.cell cx cy = some
          { character := BitVec.ofNat 8 (v % 256)
            background := BitVec.ofNat 4 (v / 4096)
            foreground := BitVec.ofNat 4 (v / 256 % 16) } ∧
        ∀ x y : Nat, ¬ (x = cx ∧ y = cy) → t.display.cell x y = s.display.cell x y

/-! ### The retire record -/

/-- The retire record of 60_exceptions.md section 3, field by field: the fetch pc, the fetched word, its decoded record, every register
that changed with its values before and after, at most one, and the byte writes in order (the spec's decision D19, log 17). -/
def Obligations.RetireRecordFields : Prop :=
  ∀ s t : State, s.host = [] → step s = .next t →
    ∃ rec : RetireRecord, t.retire = some rec ∧ rec.fetchPc = s.pc ∧
      rec.word = s.readByte (s.pc + 1#16) ++ s.readByte s.pc ∧
      rec.decoded = (decode s.platform.opcodeMap rec.word).toDecoded ∧
      (∀ c : RegChange, c ∈ rec.regChanges ↔
        c.reg ≠ 0 ∧ c.before = s.readReg c.reg ∧ c.after = t.readReg c.reg ∧ c.before ≠ c.after) ∧
      rec.regChanges.length ≤ 1 ∧
      rec.memWrites = match decode s.platform.opcodeMap rec.word with
        | .sb rd rs1 imm =>
          let ea := effectiveAddress s rs1 imm
          [⟨ea, s.readByte ea, (s.readReg rd).setWidth 8⟩]
        | .sw rd rs1 imm =>
          let ea := effectiveAddress s rs1 imm
          [⟨ea, s.readByte ea, (s.readReg rd).setWidth 8⟩,
           ⟨ea + 1#16, s.readByte (ea + 1#16), (s.readReg rd).extractLsb' 8 8⟩]
        | _ => []

/-- The record tells the host the whole step: its register changes and its last write to each address, laid over the state before, give
every register and every byte of memory after (60_exceptions.md section 3; the spec's decision D19, log 17). -/
def Obligations.RetireRecordReplaysTheStep : Prop :=
  ∀ s t : State, s.host = [] → step s = .next t →
    ∃ rec : RetireRecord, t.retire = some rec ∧
      (∀ r : Reg, t.readReg r = ((rec.regChanges.find? fun c => c.reg == r).map (·.after)).getD (s.readReg r)) ∧
      (∀ a : Word, t.readByte a =
        ((rec.memWrites.reverse.find? fun w => w.addr == a).map (·.after)).getD (s.readByte a))

/-! ### Fetch coherence and the end of a run -/

/-- Self-modifying code (20_memory.md section 7; the spec's decision D9, log 9): a step whose Sw writes the two bytes at the next pc, with
no host action between, is followed by the fetch of the stored word. -/
def Obligations.NextFetchSeesTheStoredWord : Prop :=
  ∀ (s : State) (rd rs1 : Reg) (imm : Word), s.host = [] →
    decode s.platform.opcodeMap s.fetchWord = .sw rd rs1 imm → effectiveAddress s rs1 imm = addressAfter s →
      ∃ t, step s = .next t ∧ t.pc = addressAfter s ∧ t.fetchWord = s.readReg rd

/-- The end of a run (60_exceptions.md section 6; the spec's decision D16, log 15): at a state whose pc holds `Jmp r0, #0`, or a
conditional branch with immediate 0 whose condition holds, with no host action waiting, a step leaves all state unchanged but for the
record it hands over, and every further run of any length ends in the same state with the same record. -/
def Obligations.FinishedProgramRepeatsItself : Prop :=
  ∀ s : State, s.Inv → s.host = [] → s.finished = true →
    ∃ t, step s = .next t ∧
      t = { s with
        retire := some ⟨s.pc, s.fetchWord, (decode s.platform.opcodeMap s.fetchWord).toDecoded, [], []⟩
        memWrites := [] } ∧
      ∀ fuel : Nat, run fuel t = .next t
end

