-- ==== Sys2Proof/Laws/State.lean ====
section
/-! SUPPORT. One lemma per field per update of the state, true by `rfl` (or by the one case split of r0), so that no later proof
unfolds a record update. -/

namespace Sys2Proof.Machine

variable (s : State) (a t : Word) (d : Byte) (i : Reg) (v : Word)

/-! ### setPc -/

@[simp] theorem State.setPc_pc : (s.setPc t).pc = t := rfl
@[simp] theorem State.setPc_regs : (s.setPc t).regs = s.regs := rfl
@[simp] theorem State.setPc_mem : (s.setPc t).mem = s.mem := rfl
@[simp] theorem State.setPc_display : (s.setPc t).display = s.display := rfl
@[simp] theorem State.setPc_memWrites : (s.setPc t).memWrites = s.memWrites := rfl
@[simp] theorem State.setPc_retire : (s.setPc t).retire = s.retire := rfl
@[simp] theorem State.setPc_platform : (s.setPc t).platform = s.platform := rfl
@[simp] theorem State.setPc_host : (s.setPc t).host = s.host := rfl
@[simp] theorem State.setPc_readReg : (s.setPc t).readReg i = s.readReg i := rfl
@[simp] theorem State.setPc_readByte : (s.setPc t).readByte a = s.readByte a := rfl
@[simp] theorem State.setPc_readWord : (s.setPc t).readWord a = s.readWord a := rfl

/-! ### writeReg -/

@[simp] theorem State.writeReg_pc : (s.writeReg i v).pc = s.pc := by unfold State.writeReg; split <;> rfl
@[simp] theorem State.writeReg_mem : (s.writeReg i v).mem = s.mem := by unfold State.writeReg; split <;> rfl
@[simp] theorem State.writeReg_display : (s.writeReg i v).display = s.display := by
  unfold State.writeReg; split <;> rfl
@[simp] theorem State.writeReg_memWrites : (s.writeReg i v).memWrites = s.memWrites := by
  unfold State.writeReg; split <;> rfl
@[simp] theorem State.writeReg_retire : (s.writeReg i v).retire = s.retire := by
  unfold State.writeReg; split <;> rfl
@[simp] theorem State.writeReg_platform : (s.writeReg i v).platform = s.platform := by
  unfold State.writeReg; split <;> rfl
@[simp] theorem State.writeReg_host : (s.writeReg i v).host = s.host := by unfold State.writeReg; split <;> rfl
@[simp] theorem State.writeReg_readByte : (s.writeReg i v).readByte a = s.readByte a := by
  simp [State.readByte]

/-! ### byteWrite and pokeByte -/

@[simp] theorem State.byteWrite_regs : (s.byteWrite a d).regs = s.regs := rfl
@[simp] theorem State.byteWrite_pc : (s.byteWrite a d).pc = s.pc := rfl
@[simp] theorem State.byteWrite_mem : (s.byteWrite a d).mem = s.mem.put a.toNat d := rfl
@[simp] theorem State.byteWrite_display : (s.byteWrite a d).display = s.platform.offer a d s.display := rfl
@[simp] theorem State.byteWrite_memWrites :
    (s.byteWrite a d).memWrites = s.memWrites ++ [⟨a, s.readByte a, d⟩] := rfl
@[simp] theorem State.byteWrite_retire : (s.byteWrite a d).retire = s.retire := rfl
@[simp] theorem State.byteWrite_platform : (s.byteWrite a d).platform = s.platform := rfl
@[simp] theorem State.byteWrite_host : (s.byteWrite a d).host = s.host := rfl
@[simp] theorem State.byteWrite_readReg : (s.byteWrite a d).readReg i = s.readReg i := rfl

@[simp] theorem State.pokeByte_regs : (s.pokeByte a d).regs = s.regs := rfl
@[simp] theorem State.pokeByte_pc : (s.pokeByte a d).pc = s.pc := rfl
@[simp] theorem State.pokeByte_mem : (s.pokeByte a d).mem = s.mem.put a.toNat d := rfl
@[simp] theorem State.pokeByte_display : (s.pokeByte a d).display = s.display := rfl
@[simp] theorem State.pokeByte_memWrites : (s.pokeByte a d).memWrites = s.memWrites := rfl
@[simp] theorem State.pokeByte_retire : (s.pokeByte a d).retire = s.retire := rfl
@[simp] theorem State.pokeByte_platform : (s.pokeByte a d).platform = s.platform := rfl
@[simp] theorem State.pokeByte_host : (s.pokeByte a d).host = s.host := rfl

/-! ### the start and the end of a step -/

@[simp] theorem State.beginStep_regs : s.beginStep.regs = s.regs := rfl
@[simp] theorem State.beginStep_pc : s.beginStep.pc = s.pc := rfl
@[simp] theorem State.beginStep_mem : s.beginStep.mem = s.mem := rfl
@[simp] theorem State.beginStep_display : s.beginStep.display = s.display := rfl
@[simp] theorem State.beginStep_memWrites : s.beginStep.memWrites = [] := rfl
@[simp] theorem State.beginStep_retire : s.beginStep.retire = s.retire := rfl
@[simp] theorem State.beginStep_platform : s.beginStep.platform = s.platform := rfl
@[simp] theorem State.beginStep_host : s.beginStep.host = s.host := rfl
@[simp] theorem State.beginStep_readReg : s.beginStep.readReg i = s.readReg i := rfl
@[simp] theorem State.beginStep_readByte : s.beginStep.readByte a = s.readByte a := rfl
@[simp] theorem State.beginStep_nextPc : s.beginStep.nextPc = s.nextPc := rfl

@[simp] theorem State.postStep_regs : s.postStep.regs = s.regs.set 0 0#16 := rfl
@[simp] theorem State.postStep_pc : s.postStep.pc = s.pc := rfl
@[simp] theorem State.postStep_mem : s.postStep.mem = s.mem := rfl
@[simp] theorem State.postStep_display : s.postStep.display = s.display := rfl
@[simp] theorem State.postStep_memWrites : s.postStep.memWrites = s.memWrites := rfl
@[simp] theorem State.postStep_platform : s.postStep.platform = s.platform := rfl
@[simp] theorem State.postStep_host : s.postStep.host = s.host := rfl
@[simp] theorem State.postStep_readByte : s.postStep.readByte a = s.readByte a := rfl

variable (u : State)

@[simp] theorem State.endStep_regs : (s.endStep u).regs = u.regs.set 0 0#16 := rfl
@[simp] theorem State.endStep_pc : (s.endStep u).pc = u.pc := rfl
@[simp] theorem State.endStep_mem : (s.endStep u).mem = u.mem := rfl
@[simp] theorem State.endStep_display : (s.endStep u).display = u.display := rfl
@[simp] theorem State.endStep_memWrites : (s.endStep u).memWrites = [] := rfl
@[simp] theorem State.endStep_retire : (s.endStep u).retire = some (retireRecord s u.postStep) := rfl
@[simp] theorem State.endStep_platform : (s.endStep u).platform = u.platform := rfl
@[simp] theorem State.endStep_host : (s.endStep u).host = u.host := rfl
@[simp] theorem State.endStep_readByte : (s.endStep u).readByte a = u.readByte a := rfl

/-! ### registers -/

/-- r0 reads 0 in every state (spec 10_state.md R21). -/
@[simp] theorem State.readReg_zero : s.readReg 0 = 0#16 := rfl

/-- What a register write does to every register (R22, R23). -/
theorem State.readReg_writeReg (r : Reg) :
    (s.writeReg i v).readReg r = if r = i ∧ r ≠ 0 then v else s.readReg r := by
  unfold State.writeReg State.readReg
  by_cases hr : r = 0
  · simp [hr]
  · by_cases hi : i = 0
    · subst hi; simp [hr]
    · by_cases h : r = i
      · subst h; simp [hr]
      · have h' : ¬ i.val = r.val := fun e => h (Fin.ext e.symm)
        simp [hr, hi, h, h']

/-- The post-step normalisation is seen by no register read (R21, R24). -/
@[simp] theorem State.postStep_readReg : s.postStep.readReg i = s.readReg i := by
  unfold State.readReg
  by_cases hi : i = 0
  · simp [hi]
  · have : ¬ 0 = i.val := fun e => hi (Fin.ext e.symm)
    simp [hi, this]

@[simp] theorem State.endStep_readReg : (s.endStep u).readReg i = u.readReg i := State.postStep_readReg u i

end Sys2Proof.Machine
end

