-- ==== Sys2Proof/Laws/Display.lean ====
section
/-! SUPPORT. What an offered byte does to the display buffer (spec 60_exceptions.md R125 to R128), said once. -/

namespace Sys2Proof.Machine

/-- One cell changed: every other cell reads as before. -/
theorem DisplayGrid.cell_modifyCell (g : DisplayGrid) (x0 y0 x y : Nat) (f : DisplayCell → DisplayCell) :
    (g.modifyCell x0 y0 f).cell x y = if x = x0 ∧ y = y0 then (g.cell x y).map f else g.cell x y := by
  unfold DisplayGrid.modifyCell DisplayGrid.cell
  rw [List.getElem?_modify]
  by_cases hy : y0 = y
  · subst hy
    cases hg : g[y0]? with
    | none => simp
    | some row =>
      by_cases hx : x0 = x
      · subst hx; simp
      · simp [hx, Ne.symm hx]
  · simp [hy, Ne.symm hy]

/-- The grid keeps its dimensions. -/
theorem DisplayGrid.dims_modifyCell (w h x0 y0 : Nat) (f : DisplayCell → DisplayCell) (g : DisplayGrid)
    (hg : DisplayGrid.dims w h g = true) : DisplayGrid.dims w h (g.modifyCell x0 y0 f) = true := by
  unfold DisplayGrid.dims DisplayGrid.modifyCell at *
  simp only [Bool.and_eq_true, beq_iff_eq, List.all_eq_true, List.length_modify] at hg ⊢
  refine ⟨hg.1, fun row hrow => ?_⟩
  obtain ⟨k, hk, rfl⟩ := List.getElem_of_mem hrow
  rw [List.getElem_modify]
  have hk' : k < g.length := by simpa using hk
  have := hg.2 g[k] (List.getElem_mem hk')
  split <;> simp [this]

/-- An offered byte keeps the grid's dimensions. -/
theorem Platform.dims_offer (p : Platform) (w h : Nat) (a : Word) (d : Byte) (g : DisplayGrid)
    (hg : DisplayGrid.dims w h g = true) : DisplayGrid.dims w h (p.offer a d g) = true := by
  unfold Platform.offer
  split
  · exact DisplayGrid.dims_modifyCell _ _ _ _ _ _ hg
  · exact hg

/-- A byte offered outside the window changes nothing (R128). -/
theorem Platform.offer_of_not_inWindow (p : Platform) (a : Word) (d : Byte) (g : DisplayGrid)
    (h : p.inWindow a = false) : p.offer a d g = g := by
  simp [Platform.offer, h]

/-- A byte offered in the window changes one cell (R125 to R127). -/
theorem Platform.offer_of_inWindow (p : Platform) (a : Word) (d : Byte) (g : DisplayGrid)
    (h : p.inWindow a = true) :
    p.offer a d g = g.modifyCell ((a.toNat - p.displayBase.toNat) / 2 % p.displayW)
      ((a.toNat - p.displayBase.toNat) / 2 / p.displayW)
      (if (a.toNat - p.displayBase.toNat) % 2 = 0 then DisplayCell.setCharacter d else DisplayCell.setAttribute d) := by
  simp [Platform.offer, h]

/-- Every cell of a grid of the stated dimensions is there (R33). -/
theorem DisplayGrid.cell_isSome (w h x y : Nat) (g : DisplayGrid) (hg : DisplayGrid.dims w h g = true)
    (hx : x < w) (hy : y < h) : ∃ c, g.cell x y = some c := by
  unfold DisplayGrid.dims at hg
  simp only [Bool.and_eq_true, beq_iff_eq, List.all_eq_true] at hg
  have hy' : y < g.length := by omega
  have hrow : g[y].length = w := hg.2 g[y] (List.getElem_mem hy')
  have hx' : x < g[y].length := by omega
  exact ⟨g[y][x], by simp [DisplayGrid.cell, hy', hx']⟩

/-- Changing a cell twice is changing it once by the composite. -/
theorem DisplayGrid.modifyCell_modifyCell (g : DisplayGrid) (x y : Nat) (f f' : DisplayCell → DisplayCell) :
    (g.modifyCell x y f).modifyCell x y f' = g.modifyCell x y (f' ∘ f) := by
  unfold DisplayGrid.modifyCell
  refine List.ext_getElem? fun k => ?_
  simp only [List.getElem?_modify]
  cases g[k]? with
  | none => rfl
  | some row =>
    by_cases hk : y = k
    · simp only [hk, if_true, Option.map_some, Option.some.injEq, Option.map_eq_map]
      refine List.ext_getElem? fun j => ?_
      simp only [List.getElem?_modify]
      cases row[j]? with
      | none => rfl
      | some c => by_cases hj : x = j <;> simp [hj]
    · simp [hk]

end Sys2Proof.Machine
end

