-- ==== Sys2Proof/Laws/Memory.lean ====
section
/-! SUPPORT. The laws of memory: a read after a write, and that every operation keeps the canonical form. -/

namespace Sys2Proof.Machine

/-! ### reads -/

theorem Memory.get_eraseCell (m : Memory) (a b : Nat) :
    (m.eraseCell a).get b = if b = a then 0#8 else m.get b := by
  induction m with
  | nil => simp [Memory.eraseCell, Memory.get]
  | cons c m ih =>
    obtain ⟨k, d⟩ := c
    simp only [Memory.eraseCell] at ih ⊢
    by_cases hk : k = a
    · subst hk
      simp only [List.filter_cons, bne_self_eq_false, Bool.false_eq_true, if_false, ih, Memory.get]
      by_cases hb : b = k
      · simp [hb]
      · simp [hb, Ne.symm hb]
    · simp only [List.filter_cons, bne_iff_ne, ne_eq, hk, not_false_eq_true, if_true, Memory.get, ih]
      by_cases hb : k = b
      · subst hb; simp [hk]
      · simp [hb]

theorem Memory.get_insertCell (m : Memory) (a b : Nat) (v : Byte) (h : m.get a = 0#8 ∧ a ∉ m.map Prod.fst) :
    (m.insertCell a v).get b = if b = a then v else m.get b := by
  induction m with
  | nil =>
    by_cases hb : b = a
    · simp [Memory.insertCell, Memory.get, hb]
    · simp [Memory.insertCell, Memory.get, hb, Ne.symm hb]
  | cons c m ih =>
    obtain ⟨k, d⟩ := c
    simp only [List.map_cons, List.mem_cons, not_or] at h
    have hka : k ≠ a := Ne.symm h.2.1
    have ih' := ih ⟨by simpa [Memory.get, hka] using h.1, h.2.2⟩
    unfold Memory.insertCell
    by_cases hlt : a < k
    · simp only [hlt, if_true, Memory.get]
      by_cases hb : b = a
      · simp [hb]
      · simp [hb, Ne.symm hb]
    · simp only [hlt, if_false, Memory.get, ih']
      by_cases hb : k = b
      · subst hb; simp [hka]
      · simp [hb]

theorem Memory.not_mem_eraseCell (m : Memory) (a : Nat) : a ∉ (m.eraseCell a).map Prod.fst := by
  simp [Memory.eraseCell]

/-- What one written byte does to every read. -/
theorem Memory.get_put (m : Memory) (a b : Nat) (v : Byte) :
    (m.put a v).get b = if b = a then v else m.get b := by
  unfold Memory.put
  by_cases hv : v = 0#8
  · simp [hv, Memory.get_eraseCell]
  · rw [if_neg hv, Memory.get_insertCell _ _ _ _ ⟨by simp [Memory.get_eraseCell], m.not_mem_eraseCell a⟩,
      Memory.get_eraseCell]
    by_cases hb : b = a <;> simp [hb]

/-- What the bytes of an image read as (spec 10_state.md R35). -/
theorem Memory.get_ofBytes (lo : Nat) (bs : List Byte) (a : Nat) :
    (Memory.ofBytes lo bs).get a = if lo ≤ a then bs.getD (a - lo) 0#8 else 0#8 := by
  induction bs generalizing lo with
  | nil => simp [Memory.ofBytes, Memory.get]
  | cons b bs ih =>
    unfold Memory.ofBytes
    have key : lo ≤ a → a ≠ lo → a - lo = (a - (lo + 1)) + 1 := fun _ _ => by omega
    by_cases hlo : lo ≤ a
    · by_cases he : a = lo
      · subst he
        by_cases hb : b = 0#8
        · simp [hb, ih]
        · simp [hb, Memory.get]
      · have h1 : lo + 1 ≤ a := by omega
        by_cases hb : b = 0#8
        · simp [hb, ih, hlo, h1, key hlo he]
        · simp [hb, Memory.get, ih, hlo, h1, Ne.symm he, key hlo he]
    · have h1 : ¬ lo + 1 ≤ a := by omega
      have h2 : ¬ lo = a := by omega
      by_cases hb : b = 0#8 <;> simp [hb, Memory.get, ih, hlo, h1, h2]

/-! ### canonical form -/

theorem Memory.wfFrom_mono {lo lo' : Nat} (m : Memory) (h : lo' ≤ lo) (hm : Memory.wfFrom lo m = true) :
    Memory.wfFrom lo' m = true := by
  cases m with
  | nil => rfl
  | cons c m =>
    obtain ⟨k, d⟩ := c
    simp only [Memory.wfFrom, Bool.and_eq_true, decide_eq_true_eq] at hm ⊢
    exact ⟨⟨⟨by omega, hm.1.1.2⟩, hm.1.2⟩, hm.2⟩

theorem Memory.wfFrom_eraseCell (lo a : Nat) (m : Memory) (hm : Memory.wfFrom lo m = true) :
    Memory.wfFrom lo (m.eraseCell a) = true := by
  induction m generalizing lo with
  | nil => rfl
  | cons c m ih =>
    obtain ⟨k, d⟩ := c
    simp only [Memory.wfFrom, Bool.and_eq_true, decide_eq_true_eq] at hm
    have := ih (k + 1) hm.2
    by_cases hk : k = a
    · simp only [Memory.eraseCell, List.filter_cons, hk, bne_self_eq_false, Bool.false_eq_true, if_false]
      subst hk
      exact Memory.wfFrom_mono _ (by omega) this
    · simp only [Memory.eraseCell, List.filter_cons, bne_iff_ne, ne_eq, hk, not_false_eq_true, if_true,
        Memory.wfFrom, Bool.and_eq_true, decide_eq_true_eq]
      exact ⟨⟨hm.1.1, by simpa using hm.1.2⟩, this⟩

theorem Memory.wfFrom_insertCell (lo a : Nat) (v : Byte) (m : Memory) (hlo : lo ≤ a) (ha : a < Config.memSize)
    (hv : v ≠ 0#8) (hk : a ∉ m.map Prod.fst) (hm : Memory.wfFrom lo m = true) :
    Memory.wfFrom lo (m.insertCell a v) = true := by
  induction m generalizing lo with
  | nil => simp [Memory.insertCell, Memory.wfFrom, hlo, ha, hv]
  | cons c m ih =>
    obtain ⟨k, d⟩ := c
    simp only [Memory.wfFrom, Bool.and_eq_true, decide_eq_true_eq] at hm
    simp only [List.map_cons, List.mem_cons, not_or] at hk
    unfold Memory.insertCell
    by_cases hlt : a < k
    · simp only [hlt, if_true, Memory.wfFrom, Bool.and_eq_true, decide_eq_true_eq, bne_iff_ne, ne_eq]
      refine ⟨⟨⟨hlo, ha⟩, hv⟩, ⟨⟨by omega, hm.1.1.2⟩, ?_⟩, hm.2⟩
      simpa using hm.1.2
    · simp only [hlt, if_false, Memory.wfFrom, Bool.and_eq_true, decide_eq_true_eq]
      exact ⟨hm.1, ih (k + 1) (by have := hk.1; omega) hk.2 hm.2⟩

/-- A written byte keeps the canonical form. -/
theorem Memory.wf_put (m : Memory) (a : Word) (v : Byte) (hm : m.wf = true) : (m.put a.toNat v).wf = true := by
  have he := Memory.wfFrom_eraseCell 0 a.toNat m hm
  unfold Memory.put
  by_cases hv : v = 0#8
  · rw [if_pos hv]; exact he
  · rw [if_neg hv]
    exact Memory.wfFrom_insertCell 0 _ v _ (Nat.zero_le _) a.isLt hv (m.not_mem_eraseCell _) he

theorem Memory.wfFrom_ofBytes (lo : Nat) (bs : List Byte) (h : lo + bs.length ≤ Config.memSize) :
    Memory.wfFrom lo (Memory.ofBytes lo bs) = true := by
  induction bs generalizing lo with
  | nil => rfl
  | cons b bs ih =>
    simp only [List.length_cons] at h
    have := ih (lo + 1) (by omega)
    unfold Memory.ofBytes
    by_cases hb : b = 0#8
    · simpa [hb] using Memory.wfFrom_mono _ (Nat.le_succ lo) this
    · have : lo < Config.memSize := by omega
      simp [Memory.wfFrom, *]

/-- A loaded image is in canonical form (spec 70_reset_and_hazards.md R136). -/
theorem Memory.wf_ofBytes (bs : List Byte) (h : bs.length ≤ Config.memSize) : (Memory.ofBytes 0 bs).wf = true :=
  Memory.wfFrom_ofBytes 0 bs (by omega)

/-! ### equal reads, equal memories -/

theorem Memory.get_of_wfFrom (lo a : Nat) (m : Memory) (hm : Memory.wfFrom lo m = true) (h : a < lo) : m.get a = 0#8 := by
  induction m generalizing lo with
  | nil => rfl
  | cons c m ih =>
    obtain ⟨k, d⟩ := c
    simp only [Memory.wfFrom, Bool.and_eq_true, decide_eq_true_eq] at hm
    have : k ≠ a := by omega
    simp only [Memory.get, this, if_false]
    exact ih (k + 1) hm.2 (by omega)

theorem Memory.ext_of_wfFrom (lo lo' : Nat) (m m' : Memory) (hm : Memory.wfFrom lo m = true)
    (hm' : Memory.wfFrom lo' m' = true) (h : ∀ a, m.get a = m'.get a) : m = m' := by
  induction m generalizing lo lo' m' with
  | nil =>
    cases m' with
    | nil => rfl
    | cons c m' =>
      obtain ⟨k, d⟩ := c
      simp only [Memory.wfFrom, Bool.and_eq_true, decide_eq_true_eq, bne_iff_ne] at hm'
      exact absurd (by simpa [Memory.get] using (h k).symm) hm'.1.2
  | cons c m ih =>
    obtain ⟨k, d⟩ := c
    simp only [Memory.wfFrom, Bool.and_eq_true, decide_eq_true_eq, bne_iff_ne] at hm
    cases m' with
    | nil => exact absurd (by simpa [Memory.get] using h k) hm.1.2
    | cons c' m' =>
      obtain ⟨k', d'⟩ := c'
      simp only [Memory.wfFrom, Bool.and_eq_true, decide_eq_true_eq, bne_iff_ne] at hm'
      have hk : k = k' := by
        rcases Nat.lt_trichotomy k k' with hlt | he | hgt
        · have h1 := h k
          rw [Memory.get, if_pos rfl, Memory.get, if_neg (by omega), Memory.get_of_wfFrom _ _ _ hm'.2 (by omega)] at h1
          exact absurd h1 hm.1.2
        · exact he
        · have h1 := h k'
          rw [Memory.get, if_neg (by omega), Memory.get, if_pos rfl, Memory.get_of_wfFrom _ _ _ hm.2 (by omega)] at h1
          exact absurd h1.symm hm'.1.2
      subst hk
      have hd : d = d' := by simpa [Memory.get] using h k
      have ht : m = m' := by
        refine ih (k + 1) (k + 1) m' hm.2 hm'.2 fun a => ?_
        have h1 := h a
        by_cases ha : k = a
        · subst ha
          rw [Memory.get_of_wfFrom _ _ _ hm.2 (by omega), Memory.get_of_wfFrom _ _ _ hm'.2 (by omega)]
        · simpa [Memory.get, ha] using h1
      rw [hd, ht]

/-- Two memories in canonical form that read alike are the same data. -/
theorem Memory.ext_of_wf (m m' : Memory) (hm : m.wf = true) (hm' : m'.wf = true) (h : ∀ a, m.get a = m'.get a) :
    m = m' := Memory.ext_of_wfFrom 0 0 m m' hm hm' h

/-! ### reads of the state -/

/-- What a store byte does to every byte read (spec 20_memory.md R38). -/
theorem State.readByte_byteWrite (s : State) (a b : Word) (d : Byte) :
    (s.byteWrite a d).readByte b = if b = a then d else s.readByte b := by
  simp [State.readByte, Memory.get_put, ← BitVec.toNat_inj]

/-- What a host's byte does to every byte read (R54). -/
theorem State.readByte_pokeByte (s : State) (a b : Word) (d : Byte) :
    (s.pokeByte a d).readByte b = if b = a then d else s.readByte b := by
  simp [State.readByte, Memory.get_put, ← BitVec.toNat_inj]

theorem Word.add_one_ne (a : Word) : a + 1#16 ≠ a := by
  intro h; have := congrArg BitVec.toNat h; simp [BitVec.toNat_add] at this; omega

/-- The two bytes of a stored word (R38). -/
theorem State.readByte_wordWrite (s : State) (a b : Word) (v : Word) :
    (s.wordWrite a v).readByte b =
      if b = a then v.setWidth 8 else if b = a + 1#16 then v.extractLsb' 8 8 else s.readByte b := by
  unfold State.wordWrite
  rw [State.readByte_byteWrite, State.readByte_byteWrite]
  by_cases h1 : b = a
  · subst h1; simp
  · simp [h1]

end Sys2Proof.Machine
end

