-- ==== Sys2Proof/Laws/Exec.lean ====
section
/-! SUPPORT. One lemma for each shared ending of an instruction, saying all it can do, and one that says which ending an instruction
has. -/

namespace Sys2Proof.Machine

/-- All that `writeAndGo` can do. -/
theorem writeAndGo_effect (rd : Reg) (v t : Word) (s : State) :
    ∃ u, writeAndGo rd v t s = .next u ∧ WritesRegister rd v t s u :=
  ⟨_, rfl,
    { regs := fun r => by simp [State.readReg_writeReg]
      pc := rfl
      noStore := ⟨fun a => by simp, by simp, by simp⟩
      around := ⟨by simp, by simp, by simp⟩ }⟩

/-- All that `goTo` can do. -/
theorem goTo_effect (t : Word) (s : State) : ∃ u, goTo t s = .next u ∧ OnlyGoesTo t s u :=
  ⟨_, rfl, ⟨fun _ => rfl, rfl, ⟨fun _ => rfl, rfl, rfl⟩, ⟨rfl, rfl, rfl⟩⟩⟩

/-- All that a conditional branch can do (spec 42_control.md R104). -/
theorem branchIf_effect (taken : Bool) (imm : Word) (s : State) :
    ∃ u, branchIf taken imm s = .next u ∧ OnlyGoesTo (if taken then relativeTarget s imm else s.nextPc) s u :=
  goTo_effect _ _

/-- `s.nextPc` is `pc + 2` mod 65536. -/
theorem State.nextPc_eq (s : State) : s.nextPc = addressAfter s := by
  apply BitVec.eq_of_toNat_eq; simp [State.nextPc, addressAfter, BitVec.toNat_add]

/-- `relativeTarget` is the fetch pc plus the signed byte count, mod 65536. -/
theorem relativeTarget_eq (s : State) (imm : Word) : relativeTarget s imm = addressFrom s imm := by
  simp [relativeTarget, addressFrom, BitVec.ofInt_add]

/-- The frame of the two store endings (R97). -/
theorem goTo_byteWrite_effect (a : Word) (d : Byte) (s : State) :
    ∃ t, goTo s.nextPc (s.byteWrite a d) = .next t ∧ StoreFrame s t ∧
      (∀ b, t.readByte b = if b = a then d else s.readByte b) ∧
      t.display = s.platform.offer a d s.display ∧ t.memWrites = s.memWrites ++ [⟨a, s.readByte a, d⟩] :=
  ⟨_, rfl, ⟨fun _ => rfl, s.nextPc_eq, ⟨rfl, rfl, rfl⟩⟩, fun b => by simp [State.readByte_byteWrite], rfl, rfl⟩

theorem goTo_wordWrite_effect (a v : Word) (s : State) :
    ∃ t, goTo s.nextPc (s.wordWrite a v) = .next t ∧ StoreFrame s t ∧
      (∀ b, t.readByte b =
        if b = a then v.setWidth 8 else if b = a + 1#16 then v.extractLsb' 8 8 else s.readByte b) ∧
      t.display = s.platform.offer (a + 1#16) (v.extractLsb' 8 8) (s.platform.offer a (v.setWidth 8) s.display) ∧
      t.memWrites = s.memWrites ++
        [⟨a, s.readByte a, v.setWidth 8⟩, ⟨a + 1#16, s.readByte (a + 1#16), v.extractLsb' 8 8⟩] := by
  refine ⟨_, rfl, ⟨fun _ => rfl, s.nextPc_eq, ⟨rfl, rfl, rfl⟩⟩, fun b => by simp [State.readByte_wordWrite], rfl, ?_⟩
  simp [State.wordWrite, State.readByte_byteWrite]

/-- The ending an instruction has: it writes its one destination register (R25), or only moves pc, or stores one or two bytes. -/
theorem exec_cases (i : Instr) (s : State) :
    (∃ rd v t, i.dest = some rd ∧ i.isStore = false ∧ (i.isTransfer = false → t = s.nextPc) ∧
      exec i s = writeAndGo rd v t s) ∨
    (∃ t, i.dest = none ∧ i.isStore = false ∧ i.isTransfer = true ∧ exec i s = goTo t s) ∨
    (∃ rd rs1 imm, i = .sb rd rs1 imm ∧
      exec i s = goTo s.nextPc (s.byteWrite (effectiveAddress s rs1 imm) ((s.readReg rd).setWidth 8))) ∨
    (∃ rd rs1 imm, i = .sw rd rs1 imm ∧
      exec i s = goTo s.nextPc (s.wordWrite (effectiveAddress s rs1 imm) (s.readReg rd))) := by
  cases i <;> first
    | exact .inl ⟨_, _, _, rfl, rfl, fun _ => rfl, rfl⟩
    | exact .inl ⟨_, _, _, rfl, rfl, fun h => Bool.noConfusion h, rfl⟩
    | exact .inr (.inl ⟨_, rfl, rfl, rfl, rfl⟩)
    | exact .inr (.inr (.inl ⟨_, _, _, rfl, rfl⟩))
    | exact .inr (.inr (.inr ⟨_, _, _, rfl, rfl⟩))

end Sys2Proof.Machine
end

