-- ==== Sys2Proof/Laws/Decode.lean ====
section
/-! SUPPORT. Words and fields as numbers: the value of an encoded word, the value of each field, the fields of an encoded word, the two
directions between a field and its immediate, and the opcode map's inverse. -/

namespace Sys2Proof

/-! ### fields as numbers -/

theorem toNat_append_eq {p q : Nat} (x : BitVec p) (y : BitVec q) : (x ++ y).toNat = x.toNat * 2 ^ q + y.toNat := by
  rw [BitVec.toNat_append, ← Nat.shiftLeft_add_eq_or_of_lt y.isLt, Nat.shiftLeft_eq]

theorem fieldOpcode_toNat (w : Word) : (fieldOpcode w).toNat = w.toNat / 2048 := by
  have := w.isLt
  simp only [fieldOpcode, BitVec.extractLsb'_toNat, Nat.shiftRight_eq_div_pow]; omega

theorem fieldHigh_val (w : Word) : (fieldHigh w).val = w.toNat / 256 % 8 := by
  change (w.extractLsb' 8 3).toNat = _
  simp only [BitVec.extractLsb'_toNat, Nat.shiftRight_eq_div_pow]

theorem fieldMid_val (w : Word) : (fieldMid w).val = w.toNat / 32 % 8 := by
  change (w.extractLsb' 5 3).toNat = _
  simp only [BitVec.extractLsb'_toNat, Nat.shiftRight_eq_div_pow]

theorem fieldLow_val (w : Word) : (fieldLow w).val = w.toNat / 4 % 8 := by
  change (w.extractLsb' 2 3).toNat = _
  simp only [BitVec.extractLsb'_toNat, Nat.shiftRight_eq_div_pow]

theorem fieldImm5_toNat (w : Word) : (fieldImm5 w).toNat = w.toNat % 32 := by
  simp [fieldImm5, BitVec.extractLsb'_toNat]

theorem fieldImm8_toNat (w : Word) : (fieldImm8 w).toNat = w.toNat % 256 := by
  simp [fieldImm8, BitVec.extractLsb'_toNat]

/-! ### encoded words as numbers (spec 30_encoding.md R70) -/

section
variable (o : BitVec 5) (a b c : Reg) (v : Word)

theorem regField_toNat : (regField a).toNat = a.val := rfl

theorem immField5_toNat : (immField5 v).toNat = v.toNat % 32 := by simp [immField5]

theorem immField8_toNat : (immField8 v).toNat = v.toNat % 256 := by simp [immField8]

theorem encodeR_toNat : (encodeR o a b c).toNat = o.toNat * 2048 + a.val * 256 + b.val * 32 + c.val * 4 := by
  change BitVec.toNat (o ++ regField a ++ regField b ++ regField c ++ 0#2) = _
  simp only [toNat_append_eq, regField_toNat, BitVec.toNat_ofNat]; omega

theorem encodeI_toNat : (encodeI o a b v).toNat = o.toNat * 2048 + a.val * 256 + b.val * 32 + v.toNat % 32 := by
  change BitVec.toNat (o ++ regField a ++ regField b ++ immField5 v) = _
  simp only [toNat_append_eq, regField_toNat, immField5_toNat]; omega

theorem encodeJ_toNat : (encodeJ o a v).toNat = o.toNat * 2048 + a.val * 256 + v.toNat % 256 := by
  change BitVec.toNat (o ++ regField a ++ immField8 v) = _
  simp only [toNat_append_eq, regField_toNat, immField8_toNat]; omega

/-! ### the fields of an encoded word (R56) -/

theorem encodeR_fields :
    fieldOpcode (encodeR o a b c) = o ∧ fieldHigh (encodeR o a b c) = a ∧ fieldMid (encodeR o a b c) = b ∧
      fieldLow (encodeR o a b c) = c := by
  have := o.isLt; have := a.isLt; have := b.isLt; have := c.isLt
  refine ⟨BitVec.eq_of_toNat_eq ?_, Fin.ext ?_, Fin.ext ?_, Fin.ext ?_⟩ <;>
    simp only [fieldOpcode_toNat, fieldHigh_val, fieldMid_val, fieldLow_val, encodeR_toNat] <;> omega

theorem encodeI_fields :
    fieldOpcode (encodeI o a b v) = o ∧ fieldHigh (encodeI o a b v) = a ∧ fieldMid (encodeI o a b v) = b ∧
      fieldImm5 (encodeI o a b v) = immField5 v := by
  have := o.isLt; have := a.isLt; have := b.isLt
  refine ⟨BitVec.eq_of_toNat_eq ?_, Fin.ext ?_, Fin.ext ?_, BitVec.eq_of_toNat_eq ?_⟩ <;>
    simp only [fieldOpcode_toNat, fieldHigh_val, fieldMid_val, fieldImm5_toNat, encodeI_toNat, immField5_toNat] <;> omega

theorem encodeJ_fields :
    fieldOpcode (encodeJ o a v) = o ∧ fieldHigh (encodeJ o a v) = a ∧ fieldImm8 (encodeJ o a v) = immField8 v := by
  have := o.isLt; have := a.isLt
  refine ⟨BitVec.eq_of_toNat_eq ?_, Fin.ext ?_, BitVec.eq_of_toNat_eq ?_⟩ <;>
    simp only [fieldOpcode_toNat, fieldHigh_val, fieldImm8_toNat, encodeJ_toNat, immField8_toNat] <;> omega

end

/-! ### a field and its immediate (R62, R74) -/

theorem immField5_sext5 (f : BitVec 5) : immField5 (sext5 f) = f := by revert f; decide

theorem immField5_zext5 (f : BitVec 5) : immField5 (zext5 f) = f := by revert f; decide

theorem immField8_sext8 (f : BitVec 8) : immField8 (sext8 f) = f := by
  apply BitVec.eq_of_getLsbD_eq
  intro i hi
  simp [immField8, sext8, BitVec.getLsbD_signExtend, hi]; omega

theorem sext5_immField5 (v : Word) (h : ImmKind.sext5.admits v = true) : sext5 (immField5 v) = v := by
  simp only [ImmKind.admits, decide_eq_true_eq] at h
  apply BitVec.eq_of_toInt_eq
  rw [sext5, immField5, BitVec.toInt_signExtend]
  simp only [BitVec.toInt_setWidth]
  have e : v.toNat = v.toInt ∨ (v.toNat : Int) = v.toInt + 65536 := by
    have := v.isLt; rw [BitVec.toInt_eq_toNat_cond]; split <;> omega
  simp only [Int.bmod_def]
  norm_num
  rcases e with e | e <;> rw [e] <;> split <;> omega

theorem zext5_immField5 (v : Word) (h : ImmKind.zext5.admits v = true) : zext5 (immField5 v) = v := by
  simp only [ImmKind.admits, decide_eq_true_eq] at h
  apply BitVec.eq_of_toNat_eq
  simp [zext5, immField5]; omega

theorem sext8_immField8 (v : Word) (h : ImmKind.sext8.admits v = true) : sext8 (immField8 v) = v := by
  simp only [ImmKind.admits, decide_eq_true_eq] at h
  apply BitVec.eq_of_toInt_eq
  rw [sext8, immField8, BitVec.toInt_signExtend]
  simp only [BitVec.toInt_setWidth]
  have e : v.toNat = v.toInt ∨ (v.toNat : Int) = v.toInt + 65536 := by
    have := v.isLt; rw [BitVec.toInt_eq_toNat_cond]; split <;> omega
  simp only [Int.bmod_def]
  norm_num
  rcases e with e | e <;> rw [e] <;> split <;> omega

/-- Every decoded immediate is in the range of its kind (R62). -/
theorem admits_immediateOf (k : ImmKind) (w : Word) : k.admits (immediateOf k w) = true := by
  cases k with
  | none => rfl
  | zext5 => exact (by decide : ∀ f : BitVec 5, ImmKind.zext5.admits (zext5 f) = true) _
  | sext5 => exact (by decide : ∀ f : BitVec 5, ImmKind.sext5.admits (sext5 f) = true) _
  | sext8 => exact (by decide : ∀ f : BitVec 8, ImmKind.sext8.admits (sext8 f) = true) _

/-! ### the opcode map (R57, R64) -/

/-- The word a mnemonic's place holds, in a map that is a bijection. -/
theorem OpcodeMap.opcodeOf_mnemonicAt (m : OpcodeMap) (hm : m.bijective) (o : BitVec 5) :
    m.opcodeOf (m.mnemonicAt o) = o := by
  have ho : o.toNat < m.toList.length := by simpa using o.isLt
  have e : m.mnemonicAt o = m.toList[o.toNat] := by simp [OpcodeMap.mnemonicAt]
  rw [OpcodeMap.opcodeOf, e, List.Nodup.idxOf_getElem hm]
  simp

theorem Mnemonic.ctorIdx_lt (mn : Mnemonic) : mn.ctorIdx < 32 := by cases mn <;> decide

theorem Mnemonic.ctorIdx_injective : Function.Injective Mnemonic.ctorIdx := by
  intro a b h
  have := congrArg Mnemonic.ofNat h
  rwa [Mnemonic.ofNat_ctorIdx, Mnemonic.ofNat_ctorIdx] at this

/-- Every mnemonic has a place in a map that is a bijection: 32 different mnemonics are all of them. -/
theorem OpcodeMap.mnemonicAt_surjective (m : OpcodeMap) (hm : m.bijective) : Function.Surjective m.mnemonicAt := by
  have hinj : Function.Injective (fun k : Fin 32 => (⟨(m[k]).ctorIdx, Mnemonic.ctorIdx_lt _⟩ : Fin 32)) := by
    intro a b h
    have h' := Mnemonic.ctorIdx_injective (Fin.mk.inj h)
    have h'' : m.toList[a.val]'(by simp) = m.toList[b.val]'(by simp) := by simpa using h'
    exact Fin.ext ((List.Nodup.getElem_inj_iff hm).1 h'')
  intro mn
  obtain ⟨k, hk⟩ := Finite.injective_iff_surjective.1 hinj ⟨mn.ctorIdx, mn.ctorIdx_lt⟩
  exact ⟨BitVec.ofFin (w := 5) k, Mnemonic.ctorIdx_injective (Fin.mk.inj hk)⟩

/-- The mnemonic at a mnemonic's place. -/
theorem OpcodeMap.mnemonicAt_opcodeOf (m : OpcodeMap) (hm : m.bijective) (mn : Mnemonic) :
    m.mnemonicAt (m.opcodeOf mn) = mn := by
  obtain ⟨o, rfl⟩ := m.mnemonicAt_surjective hm mn
  rw [m.opcodeOf_mnemonicAt hm]

end Sys2Proof
end

