-- ==== Sys2Proof/Laws/Assembly.lean ====
section
/-! SUPPORT. Writing and reading assembly text: each written part reads back (spec 30_encoding.md R72, R74). -/

namespace Sys2Proof

theorem parseReg_regText (r : Reg) : parseReg (regText r) = some r := by revert r; decide

theorem parseMnemonic_text (mn : Mnemonic) : parseMnemonic mn.text = some mn := by cases mn <;> decide

theorem parseImm_zext5 (f : BitVec 5) : parseImm .zext5 (immText (zext5 f)) = some (zext5 f) := by revert f; decide

theorem parseImm_sext5 (f : BitVec 5) : parseImm .sext5 (immText (sext5 f)) = some (sext5 f) := by revert f; decide

set_option maxRecDepth 4000 in
theorem parseImm_sext8 (f : BitVec 8) : parseImm .sext8 (immText (sext8 f)) = some (sext8 f) := by revert f; decide

/-- A written immediate in the range of its kind reads back (R74). -/
theorem parseImm_immText (k : ImmKind) (v : Word) (hk : k ≠ .none) (h : k.admits v = true) :
    parseImm k (immText v) = some v := by
  cases k with
  | none => exact absurd rfl hk
  | zext5 => rw [← zext5_immField5 v h]; exact parseImm_zext5 _
  | sext5 => rw [← sext5_immField5 v h]; exact parseImm_sext5 _
  | sext8 => rw [← sext8_immField8 v h]; exact parseImm_sext8 _

theorem splitCommas_ne_nil (b : List Char) : splitCommas b ≠ [] := by
  cases b with
  | nil => simp [splitCommas]
  | cons c cs => unfold splitCommas; split <;> (try split) <;> simp

/-- The part of a text before its first comma. -/
theorem splitCommas_append (a b : List Char) (h : ',' ∉ a) : splitCommas (a ++ ',' :: b) = a :: splitCommas b := by
  induction a with
  | nil =>
    simp only [List.nil_append, splitCommas]
    cases hb : splitCommas b with
    | nil => exact absurd hb (splitCommas_ne_nil b)
    | cons w ws => rfl
  | cons c a ih =>
    simp only [List.mem_cons, not_or] at h
    simp [splitCommas, ih h.2, Ne.symm h.1]

/-- A text without commas is one part. -/
theorem splitCommas_of_not_mem (a : List Char) (h : ',' ∉ a) : splitCommas a = [a] := by
  induction a with
  | nil => rfl
  | cons c a ih =>
    simp only [List.mem_cons, not_or] at h
    simp [splitCommas, ih h.2, Ne.symm h.1]

end Sys2Proof
end

