-- ==== Sys2Proof/Laws/PerInstr.lean ====
section
/-! SUPPORT. What holds of every instruction as syntax, one lemma per constructor: its decoded record names it again
(spec 30_encoding.md R65, R66), and an immediate in its range is the extension of its own field (R70, R74). -/

namespace Sys2Proof.Laws.RecordOfInstr

/-- The instruction is the one its decoded record names. -/
def Statement (i : Instr) : Prop := i.toDecoded.toInstr = i

theorem add (rd rs1 rs2 : Reg) : Statement (.add rd rs1 rs2) := rfl
theorem sub (rd rs1 rs2 : Reg) : Statement (.sub rd rs1 rs2) := rfl
theorem and (rd rs1 rs2 : Reg) : Statement (.and rd rs1 rs2) := rfl
theorem or (rd rs1 rs2 : Reg) : Statement (.or rd rs1 rs2) := rfl
theorem xor (rd rs1 rs2 : Reg) : Statement (.xor rd rs1 rs2) := rfl
theorem sll (rd rs1 rs2 : Reg) : Statement (.sll rd rs1 rs2) := rfl
theorem srl (rd rs1 rs2 : Reg) : Statement (.srl rd rs1 rs2) := rfl
theorem sra (rd rs1 rs2 : Reg) : Statement (.sra rd rs1 rs2) := rfl
theorem slt (rd rs1 rs2 : Reg) : Statement (.slt rd rs1 rs2) := rfl
theorem sltu (rd rs1 rs2 : Reg) : Statement (.sltu rd rs1 rs2) := rfl
theorem addi (rd rs1 : Reg) (imm : Word) : Statement (.addi rd rs1 imm) := rfl
theorem andi (rd rs1 : Reg) (imm : Word) : Statement (.andi rd rs1 imm) := rfl
theorem ori (rd rs1 : Reg) (imm : Word) : Statement (.ori rd rs1 imm) := rfl
theorem xori (rd rs1 : Reg) (imm : Word) : Statement (.xori rd rs1 imm) := rfl
theorem slli (rd rs1 : Reg) (imm : Word) : Statement (.slli rd rs1 imm) := rfl
theorem srli (rd rs1 : Reg) (imm : Word) : Statement (.srli rd rs1 imm) := rfl
theorem srai (rd rs1 : Reg) (imm : Word) : Statement (.srai rd rs1 imm) := rfl
theorem slti (rd rs1 : Reg) (imm : Word) : Statement (.slti rd rs1 imm) := rfl
theorem sltiu (rd rs1 : Reg) (imm : Word) : Statement (.sltiu rd rs1 imm) := rfl
theorem lb (rd rs1 : Reg) (imm : Word) : Statement (.lb rd rs1 imm) := rfl
theorem lbu (rd rs1 : Reg) (imm : Word) : Statement (.lbu rd rs1 imm) := rfl
theorem lw (rd rs1 : Reg) (imm : Word) : Statement (.lw rd rs1 imm) := rfl
theorem sb (rd rs1 : Reg) (imm : Word) : Statement (.sb rd rs1 imm) := rfl
theorem sw (rd rs1 : Reg) (imm : Word) : Statement (.sw rd rs1 imm) := rfl
theorem jmp (rd : Reg) (imm : Word) : Statement (.jmp rd imm) := rfl
theorem jmpr (rd rs1 : Reg) (imm : Word) : Statement (.jmpr rd rs1 imm) := rfl
theorem beq (rs1 rs2 : Reg) (imm : Word) : Statement (.beq rs1 rs2 imm) := rfl
theorem bne (rs1 rs2 : Reg) (imm : Word) : Statement (.bne rs1 rs2 imm) := rfl
theorem blt (rs1 rs2 : Reg) (imm : Word) : Statement (.blt rs1 rs2 imm) := rfl
theorem bge (rs1 rs2 : Reg) (imm : Word) : Statement (.bge rs1 rs2 imm) := rfl
theorem bltu (rs1 rs2 : Reg) (imm : Word) : Statement (.bltu rs1 rs2 imm) := rfl
theorem bgeu (rs1 rs2 : Reg) (imm : Word) : Statement (.bgeu rs1 rs2 imm) := rfl

end Sys2Proof.Laws.RecordOfInstr

namespace Sys2Proof.Laws.ImmediateField

/-- The immediate that the field of an immediate gives back (R62, R70). -/
def fromField (k : ImmKind) (v : Word) : Word :=
  match k with
  | .none  => 0#16
  | .zext5 => zext5 (immField5 v)
  | .sext5 => sext5 (immField5 v)
  | .sext8 => sext8 (immField8 v)

/-- In a well-formed instruction the field of the immediate extends to the immediate. -/
def Statement (i : Instr) : Prop := i.wf = true → fromField i.mnemonic.immKind i.toDecoded.imm = i.toDecoded.imm

theorem fromField_of_admits (k : ImmKind) (v : Word) (h : k.admits v = true) : fromField k v = v := by
  cases k with
  | none => exact (beq_iff_eq.1 h).symm
  | zext5 => exact zext5_immField5 v h
  | sext5 => exact sext5_immField5 v h
  | sext8 => exact sext8_immField8 v h

theorem add (rd rs1 rs2 : Reg) : Statement (.add rd rs1 rs2) := fromField_of_admits _ _
theorem sub (rd rs1 rs2 : Reg) : Statement (.sub rd rs1 rs2) := fromField_of_admits _ _
theorem and (rd rs1 rs2 : Reg) : Statement (.and rd rs1 rs2) := fromField_of_admits _ _
theorem or (rd rs1 rs2 : Reg) : Statement (.or rd rs1 rs2) := fromField_of_admits _ _
theorem xor (rd rs1 rs2 : Reg) : Statement (.xor rd rs1 rs2) := fromField_of_admits _ _
theorem sll (rd rs1 rs2 : Reg) : Statement (.sll rd rs1 rs2) := fromField_of_admits _ _
theorem srl (rd rs1 rs2 : Reg) : Statement (.srl rd rs1 rs2) := fromField_of_admits _ _
theorem sra (rd rs1 rs2 : Reg) : Statement (.sra rd rs1 rs2) := fromField_of_admits _ _
theorem slt (rd rs1 rs2 : Reg) : Statement (.slt rd rs1 rs2) := fromField_of_admits _ _
theorem sltu (rd rs1 rs2 : Reg) : Statement (.sltu rd rs1 rs2) := fromField_of_admits _ _
theorem addi (rd rs1 : Reg) (imm : Word) : Statement (.addi rd rs1 imm) := fromField_of_admits _ _
theorem andi (rd rs1 : Reg) (imm : Word) : Statement (.andi rd rs1 imm) := fromField_of_admits _ _
theorem ori (rd rs1 : Reg) (imm : Word) : Statement (.ori rd rs1 imm) := fromField_of_admits _ _
theorem xori (rd rs1 : Reg) (imm : Word) : Statement (.xori rd rs1 imm) := fromField_of_admits _ _
theorem slli (rd rs1 : Reg) (imm : Word) : Statement (.slli rd rs1 imm) := fromField_of_admits _ _
theorem srli (rd rs1 : Reg) (imm : Word) : Statement (.srli rd rs1 imm) := fromField_of_admits _ _
theorem srai (rd rs1 : Reg) (imm : Word) : Statement (.srai rd rs1 imm) := fromField_of_admits _ _
theorem slti (rd rs1 : Reg) (imm : Word) : Statement (.slti rd rs1 imm) := fromField_of_admits _ _
theorem sltiu (rd rs1 : Reg) (imm : Word) : Statement (.sltiu rd rs1 imm) := fromField_of_admits _ _
theorem lb (rd rs1 : Reg) (imm : Word) : Statement (.lb rd rs1 imm) := fromField_of_admits _ _
theorem lbu (rd rs1 : Reg) (imm : Word) : Statement (.lbu rd rs1 imm) := fromField_of_admits _ _
theorem lw (rd rs1 : Reg) (imm : Word) : Statement (.lw rd rs1 imm) := fromField_of_admits _ _
theorem sb (rd rs1 : Reg) (imm : Word) : Statement (.sb rd rs1 imm) := fromField_of_admits _ _
theorem sw (rd rs1 : Reg) (imm : Word) : Statement (.sw rd rs1 imm) := fromField_of_admits _ _
theorem jmp (rd : Reg) (imm : Word) : Statement (.jmp rd imm) := fromField_of_admits _ _
theorem jmpr (rd rs1 : Reg) (imm : Word) : Statement (.jmpr rd rs1 imm) := fromField_of_admits _ _
theorem beq (rs1 rs2 : Reg) (imm : Word) : Statement (.beq rs1 rs2 imm) := fromField_of_admits _ _
theorem bne (rs1 rs2 : Reg) (imm : Word) : Statement (.bne rs1 rs2 imm) := fromField_of_admits _ _
theorem blt (rs1 rs2 : Reg) (imm : Word) : Statement (.blt rs1 rs2 imm) := fromField_of_admits _ _
theorem bge (rs1 rs2 : Reg) (imm : Word) : Statement (.bge rs1 rs2 imm) := fromField_of_admits _ _
theorem bltu (rs1 rs2 : Reg) (imm : Word) : Statement (.bltu rs1 rs2 imm) := fromField_of_admits _ _
theorem bgeu (rs1 rs2 : Reg) (imm : Word) : Statement (.bgeu rs1 rs2 imm) := fromField_of_admits _ _

end Sys2Proof.Laws.ImmediateField
end

