-- ==== Sys2Proof/Laws/Step.lean ====
section
/-! SUPPORT. The step: what the two fetched bytes decode to, what the host's actions at a boundary keep, and what the retire record
lists. -/

namespace Sys2Proof.Machine

/-- The two bytes at pc decode to the instruction of the word at pc (spec 20_memory.md R41; 30_encoding.md R65). -/
theorem decodeBytes_fetchBytes (m : OpcodeMap) (s : State) :
    decodeBytes m s.fetchBytes = .ok (decode m s.fetchWord, []) := rfl

/-- A property that every action of the host keeps holds after all of them. -/
theorem hostActs_induct (P : State → Prop) (hP : ∀ a s t, P s → hostAct a s = .next t → P t) :
    ∀ (acts : List HostAction) (s t : State), P s → hostActs acts s = .next t → P t := by
  intro acts
  induction acts with
  | nil =>
    intro s t hs h
    have : s = t := by simpa [hostActs] using h
    exact this ▸ hs
  | cons a as ih =>
    intro s t hs h
    unfold hostActs at h
    cases ha : hostAct a s with
    | next u => rw [ha] at h; exact ih u t (hP a s u hs ha) h
    | fault r => rw [ha] at h; cases h
    | refused r => rw [ha] at h; cases h

/-- All that one action of the host can do (60_exceptions.md R130). -/
theorem hostAct_cases (a : HostAction) (s t : State) (h : hostAct a s = .next t) :
    (∃ v, a = .inputWrite v ∧ t = s.pokeByte s.platform.inputAddr v) ∨
    (∃ image, a = .loadImage image ∧ image.length ≤ Config.memSize ∧
      t = { s with
        regs := s.platform.initialRegs, pc := 0#16, mem := Memory.ofBytes 0 image
        display := s.platform.displayInit }) ∨
    (a = .snapshot ∧ t = s) := by
  cases a with
  | inputWrite v =>
    refine .inl ⟨v, rfl, ?_⟩
    simpa [hostAct, inputWrite] using h.symm
  | loadImage image =>
    simp only [hostAct, loadImage] at h
    split at h
    · refine .inr (.inl ⟨image, rfl, by assumption, ?_⟩)
      simpa using h.symm
    · cases h
  | snapshot => exact .inr (.inr ⟨rfl, by simpa [hostAct] using h.symm⟩)

/-- No action of the host changes the open parameters, the schedule or the record handed over last. -/
theorem hostAct_around (a : HostAction) (s t : State) (h : hostAct a s = .next t) : SameSurroundings s t := by
  obtain ⟨v, -, rfl⟩ | ⟨image, -, -, rfl⟩ | ⟨-, rfl⟩ := hostAct_cases a s t h <;> exact ⟨rfl, rfl, rfl⟩

theorem hostActs_around (acts : List HostAction) (s t : State) (h : hostActs acts s = .next t) :
    SameSurroundings s t :=
  hostActs_induct (SameSurroundings s)
    (fun a u v hu huv =>
      have e := hostAct_around a u v huv
      ⟨e.retire.trans hu.retire, e.platform.trans hu.platform, e.host.trans hu.host⟩)
    acts s t ⟨rfl, rfl, rfl⟩ h

/-- The host's actions go through if no image is too long (70_reset_and_hazards.md R137). -/
theorem hostActs_next (acts : List HostAction) (s : State) (h : ImagesFit acts) : ∃ t, hostActs acts s = .next t := by
  induction acts generalizing s with
  | nil => exact ⟨s, rfl⟩
  | cons a as ih =>
    have ha : ∃ u, hostAct a s = .next u := by
      cases a with
      | inputWrite v => exact ⟨_, rfl⟩
      | loadImage image =>
        exact ⟨_, if_pos (h image (by simp))⟩
      | snapshot => exact ⟨_, rfl⟩
    obtain ⟨u, hu⟩ := ha
    obtain ⟨t, ht⟩ := ih u fun image hi => h image (by simp [hi])
    exact ⟨t, by simp [hostActs, hu, ht]⟩

/-- With no action waiting, the boundary changes nothing (70_reset_and_hazards.md R145). -/
theorem boundary_of_nil (s : State) (h : s.host = []) : boundary s = .next s := by simp [boundary, h]

/-- The actions waiting at the next boundary happen there and leave the schedule. -/
theorem boundary_of_cons (s : State) (acts : List HostAction) (rest : List (List HostAction))
    (h : s.host = acts :: rest) : boundary s = hostActs acts { s with host := rest } := by simp [boundary, h]

/-- An entry of the register changes: a register other than r0, its two different values (60_exceptions.md R124). -/
theorem mem_regChanges (s t : State) (c : RegChange) :
    c ∈ regChanges s t ↔
      c.reg ≠ 0 ∧ c.before = s.readReg c.reg ∧ c.after = t.readReg c.reg ∧ c.before ≠ c.after := by
  unfold regChanges
  rw [List.mem_filterMap]
  constructor
  · rintro ⟨i, hi, h⟩
    split at h
    · cases h
    · cases h
      refine ⟨?_, rfl, rfl, by assumption⟩
      rintro rfl
      simp at hi
  · rintro ⟨h0, hb, ha, hne⟩
    refine ⟨c.reg, ?_, ?_⟩
    · exact (by decide : ∀ r : Reg, r ≠ 0 → r ∈ ([1, 2, 3, 4, 5, 6, 7] : List Reg)) c.reg h0
    · rw [← hb, ← ha, if_neg hne]

end Sys2Proof.Machine
end

