-- ==== Sys2Proof/Tests/Slice0.lean ====
section
/-! SUPPORT. Tests of single decodings and single steps, with expected values from spec/95_test_vectors.md ("TV" below) or worked out by
hand from the rule named, and for each statement with hypotheses a witness that meets them. -/

namespace Sys2Proof.Tests

open Sys2Proof.Machine

set_option maxRecDepth 4000

/-! ### WellFormed: each check refuses an ill-formed term (30_encoding.md R74) -/

theorem test_wf_none : ImmKind.none.admits 0 = true ∧ ImmKind.none.admits 1 = false := by decide
theorem test_wf_zext5 : (Instr.andi 1 2 31).wf = true ∧ (Instr.andi 1 2 32).wf = false ∧
    (Instr.srai 1 2 0).wf = true ∧ (Instr.sltiu 1 2 0xFFFF).wf = false := by decide
theorem test_wf_sext5 : (Instr.addi 1 2 15).wf = true ∧ (Instr.addi 1 2 16).wf = false ∧
    (Instr.lw 1 2 0xFFF0).wf = true ∧ (Instr.lw 1 2 0xFFEF).wf = false := by decide
theorem test_wf_sext5_branch : (Instr.beq 1 2 0xFFF0).wf = true ∧ (Instr.bgeu 1 2 0xFFEF).wf = false ∧
    (Instr.jmpr 1 2 15).wf = true ∧ (Instr.jmpr 1 2 16).wf = false := by decide
theorem test_wf_sext8 : (Instr.jmp 1 127).wf = true ∧ (Instr.jmp 1 128).wf = false ∧
    (Instr.jmp 1 0xFF80).wf = true ∧ (Instr.jmp 1 0xFF7F).wf = false := by decide

/-! ### Decoding: one word of each instruction, its fields written out from 30_encoding.md R56, R63, R64 -/

theorem test_decode_add : decodeTableWord 16 0b00000_011_001_010_00 = some (.add 3 1 2) := by decide
theorem test_decode_sub : decodeTableWord 16 0b00001_011_010_001_00 = some (.sub 3 2 1) := by decide
theorem test_decode_and : decodeTableWord 16 0b00010_111_100_001_00 = some (.and 7 4 1) := by decide
theorem test_decode_or : decodeTableWord 16 0b00011_001_111_110_00 = some (.or 1 7 6) := by decide
theorem test_decode_xor : decodeTableWord 16 0b00100_101_110_011_00 = some (.xor 5 6 3) := by decide
theorem test_decode_sll : decodeTableWord 16 0b00101_010_011_100_00 = some (.sll 2 3 4) := by decide
theorem test_decode_srl : decodeTableWord 16 0b00110_100_010_001_00 = some (.srl 4 2 1) := by decide
theorem test_decode_sra : decodeTableWord 16 0b00111_110_101_100_00 = some (.sra 6 5 4) := by decide
theorem test_decode_slt : decodeTableWord 16 0b01000_001_010_011_00 = some (.slt 1 2 3) := by decide
theorem test_decode_sltu : decodeTableWord 16 0b01001_011_000_010_00 = some (.sltu 3 0 2) := by decide
theorem test_decode_addi : decodeTableWord 16 0b01010_001_010_11101 = some (.addi 1 2 0xFFFD) := by decide
theorem test_decode_andi : decodeTableWord 16 0b01011_010_001_11111 = some (.andi 2 1 31) := by decide
theorem test_decode_ori : decodeTableWord 16 0b01100_100_111_10101 = some (.ori 4 7 21) := by decide
theorem test_decode_xori : decodeTableWord 16 0b01101_011_100_10000 = some (.xori 3 4 16) := by decide
theorem test_decode_slli : decodeTableWord 16 0b01110_010_001_01111 = some (.slli 2 1 15) := by decide
theorem test_decode_srli : decodeTableWord 16 0b01111_111_110_11111 = some (.srli 7 6 31) := by decide
theorem test_decode_srai : decodeTableWord 16 0b10000_101_100_00001 = some (.srai 5 4 1) := by decide
theorem test_decode_slti : decodeTableWord 16 0b10001_010_001_10000 = some (.slti 2 1 0xFFF0) := by decide
theorem test_decode_sltiu : decodeTableWord 16 0b10010_010_001_10000 = some (.sltiu 2 1 16) := by decide
theorem test_decode_lb : decodeTableWord 16 0b10011_010_001_00100 = some (.lb 2 1 4) := by decide
theorem test_decode_lbu : decodeTableWord 16 0b10100_011_000_01111 = some (.lbu 3 0 15) := by decide
theorem test_decode_lw : decodeTableWord 16 0b10101_010_001_11110 = some (.lw 2 1 0xFFFE) := by decide
theorem test_decode_sb : decodeTableWord 16 0b10110_110_011_11001 = some (.sb 6 3 0xFFF9) := by decide
theorem test_decode_sw : decodeTableWord 16 0b10111_010_001_00011 = some (.sw 2 1 3) := by decide
theorem test_decode_jmp : decodeTableWord 16 0b11000_110_10100011 = some (.jmp 6 0xFFA3) := by decide
theorem test_decode_jmpr : decodeTableWord 16 0b11001_111_001_00011 = some (.jmpr 7 1 3) := by decide
theorem test_decode_beq : decodeTableWord 16 0b11010_001_010_11100 = some (.beq 1 2 0xFFFC) := by decide
theorem test_decode_bne : decodeTableWord 16 0b11011_001_000_10000 = some (.bne 1 0 0xFFF0) := by decide
theorem test_decode_blt : decodeTableWord 16 0b11100_011_010_00110 = some (.blt 3 2 6) := by decide
theorem test_decode_bge : decodeTableWord 16 0b11101_000_111_01111 = some (.bge 0 7 15) := by decide
theorem test_decode_bltu : decodeTableWord 16 0b11110_101_010_10101 = some (.bltu 5 2 0xFFF5) := by decide
theorem test_decode_bgeu : decodeTableWord 16 0b11111_001_000_00111 = some (.bgeu 1 0 7) := by decide

/-- The reserved bits of R format are not read (TV 2.1, 0x0003; R67). -/
theorem test_decode_reserved_bits : decodeTableWord 16 0x0003 = some (.add 0 0 0) := by decide
/-- The all-ones words of TV 2.1. -/
theorem test_decode_all_ones : decodeTableWord 16 0x07FF = some (.add 7 7 7) ∧
    decodeTableWord 16 0xFFFF = some (.bgeu 7 7 0xFFFF) ∧ decodeTableWord 16 0xC7FF = some (.jmp 7 0xFFFF) := by decide
/-- The record of a B-format word has rd 0, of an R-format word imm 0 (R65; D4). -/
theorem test_record_zero_fields : (decodeRecord refOpcodeMap 0xF555).rd = 0 ∧
    (decodeRecord refOpcodeMap 0x25CC).imm = 0#16 := by decide
/-- One byte is no instruction: refused by name. -/
theorem test_decode_one_byte : (match decodeBytes refOpcodeMap [0x05] with
    | .ok _ => none
    | .error e => some e) = some DecodeReject.tooFewBytes := by decide
/-- The field round trips of TV S2. -/
theorem test_encode_words : encode refOpcodeMap (.xor 5 6 3) = 0x25CC ∧ encode refOpcodeMap (.ori 4 7 21) = 0x64F5 ∧
    encode refOpcodeMap (.jmp 6 0xFFA3) = 0xC6A3 ∧ encode refOpcodeMap (.bltu 5 2 0xFFF5) = 0xF555 ∧
    encode refOpcodeMap (.sb 6 3 0xFFF9) = 0xB679 := by decide
/-- Out of range: no encoding (R74). -/
theorem test_assemble_refuses : assemble refOpcodeMap (.addi 1 0 16) = none := by decide

/-! ### Assembly text (30_encoding.md R72, R73) -/

theorem test_asm_source_example : parseInstr "Addi r1,r0,#5".toList = some (.addi 1 0 5) ∧
    parseInstr " addI  r1 , r1,#-3".toList = some (.addi 1 1 0xFFFD) := by decide
theorem test_asm_words : assembleText refOpcodeMap "Jmp r6, #-93".toList = some 0xC6A3 ∧
    assembleText refOpcodeMap "Bne r1, r0, #-4".toList = some 0xD91C ∧
    assembleText refOpcodeMap "Sw r2, r1, #-2".toList = some 0xBA3E := by decide
theorem test_asm_pseudo : assembleText refOpcodeMap "Nop".toList = some 0x0000 ∧
    assembleText refOpcodeMap "Halt".toList = some 0xC000 ∧ assembleText refOpcodeMap "Mv r3, r2".toList = some 0x5340 ∧
    assembleText refOpcodeMap "J #-2".toList = some 0xC0FE := by decide
theorem test_asm_refuses : parseInstr "Andi r1, r1, #32".toList = none ∧ parseInstr "Jmp r1, #128".toList = none ∧
    parseInstr "Add r1, r2, r8".toList = none := by decide
theorem test_asm_writes : (Instr.jmp 6 0xFFA3).text = "Jmp r6, #-93".toList ∧
    (Instr.add 3 1 2).text = "Add r3, r1, r2".toList := by decide

/-! ### One step: the helpers -/

/-- State.reset with registers, bytes and an instruction word at pc. -/
def stateAt (pc : Word) (regs : List (Reg × Word)) (bytes : List (Word × Byte)) (w : Nat) : State :=
  let s := regs.foldl (fun s r => s.writeReg r.1 r.2) (State.reset.setPc pc)
  (bytes.foldl (fun s b => s.pokeByte b.1 b.2) s).withFetchWord 16 w

/-- What a step leads to. -/
def after (s : State) : Option State :=
  match step s with
  | .next t => some t
  | .fault _ => none
  | .refused _ => none

/-- pc and one register after a step. -/
def pcAnd (r : Reg) (s : State) : Option (Word × Word) := (after s).map fun t => (t.pc, t.readReg r)

/-- The retire record of a step. -/
def record (s : State) : Option RetireRecord := (after s).bind (·.retire)

/-- pc and the bytes a step wrote. -/
def pcAndWrites (s : State) : Option (Word × List MemWrite) :=
  (after s).bind fun t => t.retire.map fun r => (t.pc, r.memWrites)

/-! ### Integer instructions (TV 2.2) -/

theorem test_add_wraps : pcAnd 3 (stateAt 0x0100 [(1, 0x7FFF), (2, 0x0001)] [] 0x0328) = some (0x0102, 0x8000) := by decide
theorem test_add_r0_discarded : pcAnd 0 (stateAt 0x0100 [(1, 0x0005), (2, 0x0006)] [] 0x0028) = some (0x0102, 0x0000) := by decide
theorem test_sub_borrow : pcAnd 3 (stateAt 0x0100 [(1, 0x0000), (2, 0x0001)] [] 0x0B28) = some (0x0102, 0xFFFF) := by decide
theorem test_sub_order : pcAnd 3 (stateAt 0x0100 [(1, 0x0003), (2, 0x0005)] [] 0x0B44) = some (0x0102, 0x0002) := by decide
theorem test_and : pcAnd 3 (stateAt 0x0100 [(1, 0xF0F0), (2, 0xFF00)] [] 0x1328) = some (0x0102, 0xF000) := by decide
theorem test_or : pcAnd 3 (stateAt 0x0100 [(1, 0xF0F0), (2, 0xFF00)] [] 0x1B28) = some (0x0102, 0xFFF0) := by decide
theorem test_xor : pcAnd 3 (stateAt 0x0100 [(1, 0xF0F0), (2, 0xFF00)] [] 0x2328) = some (0x0102, 0x0FF0) := by decide
theorem test_sll_16 : pcAnd 3 (stateAt 0x0100 [(1, 0xFFFF), (2, 0x0010)] [] 0x2B28) = some (0x0102, 0x0000) := by decide
theorem test_sll_amount_low_5_bits : pcAnd 3 (stateAt 0x0100 [(1, 0x0001), (2, 0x0021)] [] 0x2B28) = some (0x0102, 0x0002) := by decide
theorem test_srl_15 : pcAnd 3 (stateAt 0x0100 [(1, 0x8000), (2, 0x000F)] [] 0x3328) = some (0x0102, 0x0001) := by decide
theorem test_srl_31 : pcAnd 3 (stateAt 0x0100 [(1, 0xFFFF), (2, 0x001F)] [] 0x3328) = some (0x0102, 0x0000) := by decide
theorem test_sra_16 : pcAnd 3 (stateAt 0x0100 [(1, 0x8000), (2, 0x0010)] [] 0x3B28) = some (0x0102, 0xFFFF) := by decide
theorem test_sra_minus_2 : pcAnd 3 (stateAt 0x0100 [(1, 0xFFFE), (2, 0x0001)] [] 0x3B28) = some (0x0102, 0xFFFF) := by decide
theorem test_slt_signed : pcAnd 3 (stateAt 0x0100 [(1, 0x8000), (2, 0x7FFF)] [] 0x4328) = some (0x0102, 0x0001) := by decide
theorem test_slt_equal : pcAnd 3 (stateAt 0x0100 [(1, 0x0005), (2, 0x0005)] [] 0x4328) = some (0x0102, 0x0000) := by decide
theorem test_sltu_unsigned : pcAnd 3 (stateAt 0x0100 [(1, 0x7FFF), (2, 0x8000)] [] 0x4B28) = some (0x0102, 0x0001) := by decide
theorem test_sltu_equal : pcAnd 3 (stateAt 0x0100 [(1, 0xFFFF), (2, 0xFFFF)] [] 0x4B28) = some (0x0102, 0x0000) := by decide
theorem test_addi_least : pcAnd 1 (stateAt 0x0100 [] [] 0x5110) = some (0x0102, 0xFFF0) := by decide
theorem test_addi_wraps : pcAnd 1 (stateAt 0x0100 [(1, 0xFFFF)] [] 0x5121) = some (0x0102, 0x0000) := by decide
theorem test_andi : pcAnd 2 (stateAt 0x0100 [(1, 0xFFFF)] [] 0x5A3F) = some (0x0102, 0x001F) := by decide
theorem test_ori : pcAnd 2 (stateAt 0x0100 [(1, 0x8000)] [] 0x623F) = some (0x0102, 0x801F) := by decide
theorem test_xori : pcAnd 2 (stateAt 0x0100 [(1, 0xFFFF)] [] 0x6A3F) = some (0x0102, 0xFFE0) := by decide
theorem test_slli_15 : pcAnd 2 (stateAt 0x0100 [(1, 0x0003)] [] 0x722F) = some (0x0102, 0x8000) := by decide
theorem test_slli_16 : pcAnd 2 (stateAt 0x0100 [(1, 0xFFFF)] [] 0x7230) = some (0x0102, 0x0000) := by decide
theorem test_srli_1 : pcAnd 2 (stateAt 0x0100 [(1, 0x8000)] [] 0x7A21) = some (0x0102, 0x4000) := by decide
theorem test_srli_31 : pcAnd 2 (stateAt 0x0100 [(1, 0xFFFF)] [] 0x7A3F) = some (0x0102, 0x0000) := by decide
theorem test_srai_1 : pcAnd 2 (stateAt 0x0100 [(1, 0x8000)] [] 0x8221) = some (0x0102, 0xC000) := by decide
theorem test_srai_31 : pcAnd 2 (stateAt 0x0100 [(1, 0x8001)] [] 0x823F) = some (0x0102, 0xFFFF) := by decide
theorem test_slti_equal : pcAnd 2 (stateAt 0x0100 [(1, 0xFFF0)] [] 0x8A30) = some (0x0102, 0x0000) := by decide
theorem test_slti_less : pcAnd 2 (stateAt 0x0100 [(1, 0xFFEF)] [] 0x8A30) = some (0x0102, 0x0001) := by decide
theorem test_sltiu_zero : pcAnd 2 (stateAt 0x0100 [(1, 0x0000)] [] 0x9221) = some (0x0102, 0x0001) := by decide
theorem test_sltiu_not_sign_extended : pcAnd 2 (stateAt 0x0100 [(1, 0xFFFF)] [] 0x923F) = some (0x0102, 0x0000) := by decide

/-! ### Loads and stores (TV 2.3) -/

theorem test_lb_negative : pcAnd 2 (stateAt 0x1000 [(1, 0x0100)] [(0x0104, 0x80)] 0x9A24) = some (0x1002, 0xFF80) := by decide
theorem test_lb_wraps : pcAnd 2 (stateAt 0x1000 [(1, 0x0005)] [(0xFFF5, 0xAA)] 0x9A30) = some (0x1002, 0xFFAA) := by decide
theorem test_lbu : pcAnd 2 (stateAt 0x1000 [(1, 0x0100)] [(0x0104, 0x80)] 0xA224) = some (0x1002, 0x0080) := by decide
theorem test_lw_odd : pcAnd 2 (stateAt 0x1000 [(1, 0x0200)] [(0x0201, 0xCD), (0x0202, 0xAB)] 0xAA21) = some (0x1002, 0xABCD) := by decide
theorem test_lw_wraps : pcAnd 2 (stateAt 0x1000 [] [(0xFFFF, 0x34), (0x0000, 0x12)] 0xAA1F) = some (0x1002, 0x1234) := by decide
theorem test_sb_low_byte : pcAndWrites (stateAt 0x1000 [(1, 0x0200), (2, 0xABCD)] [] 0xB223) =
    some (0x1002, [⟨0x0203, 0x00, 0xCD⟩]) := by decide
theorem test_sb_r0 : pcAndWrites (stateAt 0x1000 [(1, 0x0200)] [(0x0200, 0x55)] 0xB020) =
    some (0x1002, [⟨0x0200, 0x55, 0x00⟩]) := by decide
theorem test_sw_wraps : pcAndWrites (stateAt 0x1000 [(2, 0xBEEF)] [] 0xBA1F) =
    some (0x1002, [⟨0xFFFF, 0x00, 0xEF⟩, ⟨0x0000, 0x00, 0xBE⟩]) := by decide
/-- The stored bytes are in memory, low byte first. -/
theorem test_sw_memory : (after (stateAt 0x1000 [(2, 0xBEEF)] [] 0xBA1F)).map (fun t => (t.readByte 0xFFFF, t.readByte 0)) =
    some (0xEF, 0xBE) := by decide

/-! ### Control transfer (TV 2.4) -/

theorem test_jmp_back : pcAnd 7 (stateAt 0x0100 [] [] 0xC780) = some (0x0080, 0x0102) := by decide
theorem test_jmp_link_wraps : pcAnd 1 (stateAt 0xFFFE [] [] 0xC104) = some (0x0002, 0x0000) := by decide
theorem test_jmpr_clears_bit_0 : pcAnd 7 (stateAt 0x0040 [(1, 0x0100)] [] 0xCF23) = some (0x0102, 0x0042) := by decide
theorem test_jmpr_old_rs1 : pcAnd 1 (stateAt 0x0040 [(1, 0x0200)] [] 0xC920) = some (0x0200, 0x0042) := by decide
theorem test_beq_taken : pcAnd 1 (stateAt 0x0010 [(1, 0x0005), (2, 0x0005)] [] 0xD15C) = some (0x000C, 0x0005) := by decide
theorem test_beq_not_taken : pcAnd 1 (stateAt 0x0010 [(1, 0x0005), (2, 0x0006)] [] 0xD15C) = some (0x0012, 0x0005) := by decide
theorem test_bne_not_taken : pcAnd 1 (stateAt 0x0010 [(1, 0x0000)] [] 0xD91C) = some (0x0012, 0x0000) := by decide
theorem test_bne_wraps : pcAnd 1 (stateAt 0x0004 [(1, 0x0001)] [] 0xD910) = some (0xFFF4, 0x0001) := by decide
theorem test_blt_signed : pcAnd 1 (stateAt 0x0030 [(1, 0xFFFF), (2, 0x0001)] [] 0xE146) = some (0x0036, 0xFFFF) := by decide
theorem test_blt_equal : pcAnd 1 (stateAt 0x0030 [(1, 0x0003), (2, 0x0003)] [] 0xE146) = some (0x0032, 0x0003) := by decide
theorem test_bge_signed : pcAnd 1 (stateAt 0x0030 [(1, 0xFFFF), (2, 0x0001)] [] 0xE946) = some (0x0032, 0xFFFF) := by decide
theorem test_bge_equal : pcAnd 1 (stateAt 0x0030 [(1, 0x0003), (2, 0x0003)] [] 0xE946) = some (0x0036, 0x0003) := by decide
theorem test_bltu_unsigned : pcAnd 1 (stateAt 0x0030 [(1, 0xFFFF), (2, 0x0001)] [] 0xF146) = some (0x0032, 0xFFFF) := by decide
theorem test_bltu_less : pcAnd 1 (stateAt 0x0030 [(1, 0x0001), (2, 0xFFFF)] [] 0xF146) = some (0x0036, 0x0001) := by decide
theorem test_bgeu_unsigned : pcAnd 1 (stateAt 0x0030 [(1, 0xFFFF), (2, 0x0001)] [] 0xF946) = some (0x0036, 0xFFFF) := by decide
theorem test_bgeu_odd_target : pcAnd 1 (stateAt 0x0030 [(1, 0x0000)] [] 0xF907) = some (0x0037, 0x0000) := by decide

/-! ### Fetch (TV 2.5) -/

/-- The second byte of an instruction at 0xFFFF is at 0x0000. -/
theorem test_fetch_wraps : pcAnd 1 (stateAt 0xFFFF [] [] 0x5121) = some (0x0001, 0x0001) := by decide
/-- The word is stored low byte first, and withFetchWord changes two bytes. -/
theorem test_with_fetch_word : (State.reset.withFetchWord 16 0x5105).mem = [(0, 0x05), (1, 0x51)] := by decide

/-! ### Display (TV 2.6) -/

/-- One cell after a step from the state of TV 2.6. -/
def cellAfter (w x y : Nat) : Option DisplayCell :=
  (after (stateAt 0x1000 [(1, 0x8000), (2, 0xF148)] [] w)).bind (fun t => t.display.cell x y)

theorem test_display_character : cellAfter 0xB220 0 0 = some ⟨0x48, 0, 0⟩ := by decide
theorem test_display_attribute : cellAfter 0xB221 0 0 = some ⟨0, 8, 4⟩ := by decide
theorem test_display_row_1 : cellAfter 0xB228 0 1 = some ⟨0x48, 0, 0⟩ := by decide
theorem test_display_last_byte : cellAfter 0xB22F 3 1 = some ⟨0, 8, 4⟩ := by decide
theorem test_display_sw_cell_7 : cellAfter 0xBA2E 3 1 = some ⟨0x48, 1, 15⟩ := by decide
theorem test_display_sw_half_outside : cellAfter 0xBA3F 0 0 = some ⟨0xF1, 0, 0⟩ := by decide
theorem test_display_below_base : (after (stateAt 0x1000 [(1, 0x8000), (2, 0xF148)] [] 0xB23F)).map (·.display) =
    some State.reset.display := by decide

/-! ### The retire record (TV 2.7) -/

theorem test_retire_addi : record (stateAt 0x1000 [(1, 0x1234)] [] 0x5121) =
    some ⟨0x1000, 0x5121, ⟨.addi, .I, 1, 1, 0, 1⟩, [⟨1, 0x1234, 0x1235⟩], []⟩ := by decide
theorem test_retire_equal_value : (record (stateAt 0x1000 [(1, 0x1234)] [] 0x5120)).map (·.regChanges) = some [] := by
  decide
theorem test_retire_r0 : (record (stateAt 0x1000 [] [] 0x5005)).map (·.regChanges) = some [] := by decide
theorem test_retire_equal_byte : (record (stateAt 0x1000 [] [] 0xB000)).map (·.memWrites) = some [⟨0x0000, 0, 0⟩] := by
  decide
theorem test_retire_branch : (record (stateAt 0x1000 [] [] 0xD004)).map (fun r => (r.regChanges, r.memWrites)) =
    some ([], []) := by decide

/-! ### The host (20_memory.md R54; 60_exceptions.md R129, R130; 70_reset_and_hazards.md R136, R137) -/

/-- The input byte lands after the step, in memory only, even where INPUT_ADDR is in the window. -/
theorem test_input_write :
    (after { stateAt 0 [] [] 0x0000 with
      platform := { Platform.example95 with inputAddr := 0x8000 }, host := [[.inputWrite 0x41], []] }).map
        (fun t => (t.readByte 0x8000, t.display, t.host)) = some (0x41, State.reset.display, [[]]) := by decide
/-- Image load: pc and registers back, memory the image's; a snapshot changes nothing. -/
theorem test_image_load :
    (after { stateAt 0x1000 [(1, 5)] [] 0x0000 with host := [[.loadImage [0x05, 0x51], .snapshot]] }).map
      (fun t => (t.pc, t.readReg 1, t.mem)) = some (0, 0, [(0, 0x05), (1, 0x51)]) := by decide
/-- An image of 65537 bytes is refused. -/
theorem test_image_too_long : loadImage (List.replicate 65537 0) State.reset = .refused .imageTooLong := by
  unfold loadImage
  exact if_neg (by rw [List.length_replicate]; decide)
/-- What a snapshot shows. -/
theorem test_snapshot : (stateAt 0x1000 [(7, 9)] [] 0x0000).snapshot =
    ⟨[0, 0, 0, 0, 0, 0, 0, 9], State.reset.display, 0x1000, []⟩ := by decide

/-! ### Witnesses: for each statement with hypotheses, inputs that meet them -/

/-- A state that meets the invariant, with a register, a byte and an instruction in it. -/
def sample : State := stateAt 0x0100 [(1, 0x8000), (2, 0xF148)] [(0x0200, 0x55)] 0x5121

theorem sample_inv : sample.Inv := ⟨by decide, by decide, by decide, by decide⟩

/-- OpcodeAloneSelectsTheInstruction, EncodeOfDecodeIsTheWord, AssemblerRefusesExactlyWhatNoWordIs: REF_OPCODE_MAP is a bijection; two
words with one opcode. -/
theorem witness_bijective : refOpcodeMap.bijective := by decide
theorem witness_same_opcode : (0x57FF#16).extractLsb' 11 5 = (0x5010#16).extractLsb' 11 5 := by decide

/-- The DecodesFormat clauses: every mnemonic is some word's. -/
theorem witness_every_opcode : ∀ k : Fin 32,
    refOpcodeMap.mnemonicAt ((BitVec.ofNat 16 (k.val * 2048)).extractLsb' 11 5) = refOpcodeMap[k] := by decide

/-- DecodedRecordFields: a word of each format. -/
theorem witness_formats : (decodeRecord refOpcodeMap 0x07FF).format = .R ∧ (decodeRecord refOpcodeMap 0x5010).format = .I ∧
    (decodeRecord refOpcodeMap 0xC080).format = .J ∧ (decodeRecord refOpcodeMap 0xFFFF).format = .B := by decide

/-- DecodeOfEncodeIsTheInstruction, AssemblyTextRoundTrip: well-formed instructions at the ends of the ranges, and a text. -/
theorem witness_wf : (Instr.jmp 7 0xFF80).wf = true ∧ (Instr.add 7 7 7).wf = true ∧ (Instr.bgeu 7 7 0xFFF0).wf = true ∧
    (Instr.srai 7 7 31).wf = true ∧ parseInstr "Srai r7, r7, #31".toList = some (.srai 7 7 31) := by decide

/-- AssemblerRefusesExactlyWhatNoWordIs: one instruction refused, one word written. -/
theorem witness_assemble : assemble refOpcodeMap (.jmp 1 128) = none ∧ assemble refOpcodeMap (.jmp 1 127) = some 0xC17F := by
  decide

/-- ReservedBitsAreIgnored: two words that differ in the reserved bits. -/
theorem witness_reserved_bits : (0x0003#16).extractLsb' 2 14 = (0x0000#16).extractLsb' 2 14 ∧
    (decode refOpcodeMap 0x0003).toDecoded.format = .R := by decide

/-- StepRunsTheDecodedInstruction, RetireRecordFields, RetireRecordReplaysTheStep, RegisterZeroIsZeroAfterEveryStep,
EveryStepKeepsTheInvariant, DisplayNeverFlowsBack, HostActsAfterTheWholeStep: a step with no host action waiting. -/
theorem witness_step : sample.host = [] ∧ (after sample).isSome = true ∧
    decode sample.platform.opcodeMap (sample.readByte (sample.pc + 1#16) ++ sample.readByte sample.pc) = .addi 1 1 1 := by
  decide
theorem witness_step_of_a_store : (stateAt 0xFFFE [(1, 0x8000)] [] 0xB92F).host = [] ∧
    (after (stateAt 0xFFFE [(1, 0x8000)] [] 0xB92F)).isSome = true := by decide
theorem witness_exec_next : exec (.addi 1 1 1) { sample with memWrites := [] } =
    .next (({ sample with memWrites := [] }.writeReg 1 0x8001).setPc 0x0102) := rfl

/-- HostActsAfterTheWholeStep: the step without the host's action. -/
theorem witness_step_without_host : (after { sample with host := [] }).isSome = true := by decide

/-- EveryStepKeepsTheInvariant: a step with a host action at its boundary. -/
theorem witness_step_with_host : (after { sample with host := [[.loadImage [1], .inputWrite 2]] }).isSome = true := by decide

/-- NoInstructionTrapsFaultsOrStops: images that fit, the empty one among them. -/
theorem witness_images_fit : ∀ acts, ([[.loadImage [], .loadImage [1, 2], .inputWrite 3]] : List (List HostAction)).head? =
    some acts → ImagesFit acts := by
  intro acts h image hi
  cases h
  simp only [List.mem_cons, HostAction.loadImage.injEq, List.not_mem_nil, or_false, reduceCtorEq] at hi
  rcases hi with rfl | rfl <;> simp [Config.memSize]

/-- ImageLoadEstablishesTheInvariant, ImageLoadSetsTheWholeState: legal parameters, images at and over the bound. -/
theorem witness_platform : Platform.example95.wf = true := by decide
theorem witness_image_bound : (List.replicate 65536 (0 : Byte)).length ≤ 65536 ∧
    65536 < (List.replicate 65537 (0 : Byte)).length := by
  rw [List.length_replicate, List.length_replicate]; decide
theorem witness_image_load : loadImage [0x05, 0x51] State.reset =
    .next { State.reset with mem := [(0, 0x05), (1, 0x51)] } := rfl

/-- OnlyTheDestinationRegisterChanges, WriteToRegisterZeroIsDiscarded: destinations. -/
theorem witness_dest : (Instr.add 0 1 2).dest = some 0 ∧ (Instr.lw 0 1 0).dest = some 0 ∧ (Instr.jmp 0 4).dest = some 0 ∧
    (Instr.add 1 2 3).dest ≠ some 2 ∧ (Instr.sw 1 2 3).dest ≠ some 1 := by decide

/-- WriteToRegisterZeroIsDiscarded: a step of `Addi r0, r0, #5`. -/
theorem witness_step_to_r0 : (stateAt 0x1000 [(1, 7)] [] 0x5005).host = [] ∧
    (decode refOpcodeMap (stateAt 0x1000 [(1, 7)] [] 0x5005).fetchWord).dest = some 0 ∧
    (after (stateAt 0x1000 [(1, 7)] [] 0x5005)).isSome = true := by decide

/-- OnlyStoresTouchMemoryAndDisplay, NonTransferAdvancesByTwo: kinds of instruction. -/
theorem witness_kinds : (Instr.lw 1 2 0).mnemonic ≠ .sb ∧ (Instr.lw 1 2 0).mnemonic ≠ .sw ∧
    (Instr.sw 1 2 0).isTransfer = false ∧ (Instr.add 0 0 0).isTransfer = false := by decide

/-- EvenOffsetsKeepPcEven: a transfer with an even offset and an instruction that is none, from an even pc. -/
theorem witness_even : sample.pc.toNat % 2 = 0 ∧ (Instr.jmp 1 0xFF80).toDecoded.imm.toNat % 2 = 0 ∧
    (Instr.jmp 1 0xFF80).isTransfer = true := by decide
theorem witness_even_steps : exec (.jmp 0 0xFF80) sample = .next (sample.setPc 0x0080) ∧
    exec (.addi 0 1 1) sample = .next (sample.setPc 0x0102) := ⟨rfl, rfl⟩

/-- AndiOriXoriResults: immediates below 32. -/
theorem witness_small_immediate : (0#16).toNat < 32 ∧ (31#16).toNat < 32 := by decide

/-- ShiftAmountCorners: amounts 0, 16 and 31 in a register. -/
theorem witness_shift_amounts : (3 : Reg) ≠ 0 ∧ ((stateAt 0 [(2, 0x0020)] [] 0).readReg 2).toNat % 32 = 0 ∧
    16 ≤ ((stateAt 0 [(2, 0x0010)] [] 0).readReg 2).toNat % 32 ∧
    16 ≤ ((stateAt 0 [(2, 0xFFFF)] [] 0).readReg 2).toNat % 32 := by decide

/-- EffectiveAddressIsBasePlusSignedDisplacement, SwThenLwReturnsTheWord, MixedWidthViewIsConsistent, ReturnGoesToTheLink: registers. -/
theorem witness_registers : (2 : Reg) ≠ 1 ∧ (7 : Reg) ≠ 0 := by decide

/-- RepeatedStoreChangesNothing: a memory in canonical form that lists bytes. -/
theorem witness_memory : sample.mem.wf = true ∧ sample.mem.length = 3 := by decide

/-- ReturnGoesToTheLink: a state after the call that still holds the link. -/
theorem witness_link : (after (stateAt 0x0041 [] [] 0xC708)).map (·.readReg 7) =
    some ((stateAt 0x0200 [(7, 0x0043)] [] 0).readReg 7) := by decide

/-- EvenOffsetWritesTheCharacterOnly, SwAtEvenWindowAddressWritesOneWholeCell: the first and the last cell. -/
theorem witness_window :
    sample.platform.inWindow (effectiveAddress sample 1 0) = true ∧
    ((effectiveAddress sample 1 0).toNat - sample.platform.displayBase.toNat) % 2 = 0 ∧
    sample.platform.inWindow (effectiveAddress sample 1 14) = true ∧
    ((effectiveAddress sample 1 14).toNat - sample.platform.displayBase.toNat) % 2 = 0 := by decide

/-- StoredByteDrivesOneDisplayCell: addresses inside the window at both ends, and just outside it at both ends. -/
theorem witness_window_edges : [0, 15, 16, 0xFFFF].map (fun d => sample.platform.inWindow (effectiveAddress sample 1 d)) =
    [true, true, false, false] := by decide

/-- NextFetchSeesTheStoredWord: `Sw r2, r1, #0` with r1 the next pc. -/
theorem witness_self_modifying :
    (stateAt 0x0100 [(1, 0x0102), (2, 0x5105)] [] 0xBA20).host = [] ∧
    decode refOpcodeMap (stateAt 0x0100 [(1, 0x0102), (2, 0x5105)] [] 0xBA20).fetchWord = .sw 2 1 0 ∧
    effectiveAddress (stateAt 0x0100 [(1, 0x0102), (2, 0x5105)] [] 0xBA20) 1 0 =
      addressAfter (stateAt 0x0100 [(1, 0x0102), (2, 0x5105)] [] 0xBA20) := by decide

/-- FinishedProgramRepeatsItself: `Halt`, and `Bge r0, r0, #0`. -/
theorem witness_halt_inv : (stateAt 0x0040 [] [] 0xC000).Inv := ⟨by decide, by decide, by decide, by decide⟩
theorem witness_finished : (stateAt 0x0040 [] [] 0xC000).finished = true ∧ (stateAt 0x0040 [] [] 0xC000).host = [] ∧
    (stateAt 0x0040 [] [] 0xE800).finished = true ∧ (stateAt 0x0040 [] [] 0xE000).finished = false := by decide

end Sys2Proof.Tests
end

/-! PROOFS for 10_state.md: an instruction whose destination is r0 changes no register, over its own meaning and over a whole step. -/

namespace Sys2Proof.Machine

/-! ### Instructions with a destination register -/

/-- An instruction with a destination answers a next state, and all it does there is write that register and move pc (R25). -/
theorem exec_effect_of_dest (i : Instr) (s : State) (rd : Reg) (hd : i.dest = some rd) :
    ∃ v target u, exec i s = .next u ∧ WritesRegister rd v target s u := by
  obtain ⟨rd', v, target, hd', -, -, he⟩ | ⟨_, hd', -⟩ | ⟨_, _, _, rfl, -⟩ | ⟨_, _, _, rfl, -⟩ := exec_cases i s
  · obtain rfl : rd' = rd := Option.some.inj (hd'.symm.trans hd)
    exact ⟨v, target, he ▸ writeAndGo_effect rd' v target s⟩
  · cases hd'.symm.trans hd
  · cases hd
  · cases hd

/-- Writing r0 leaves every register read as it was (R23). -/
theorem WritesRegister.readReg_of_zero {v target : Word} {s u : State} (h : WritesRegister 0 v target s u) (r : Reg) :
    u.readReg r = s.readReg r := by
  have hne : ¬ (r = 0 ∧ r ≠ 0) := fun ⟨h0, h1⟩ => h1 h0
  rw [h.regs, if_neg hne]

/-! ### A whole step -/

/-- A step is the decoded instruction, run from an empty memory-write list and then finished (R15, R41). -/
theorem step_eq_finishStep (s : State) :
    step s = finishStep s (exec (decode s.platform.opcodeMap s.fetchWord) s.beginStep) := by
  unfold step
  rw [decodeBytes_fetchBytes]

/-- Where the instruction leaves no host action waiting, the step stops at the end of the instruction (R24, R124, R145). -/
theorem step_eq_endStep (s u : State) (hu : u.host = [])
    (he : exec (decode s.platform.opcodeMap s.fetchWord) s.beginStep = .next u) : step s = .next (s.endStep u) := by
  rw [step_eq_finishStep, he]
  exact boundary_of_nil _ hu

/-- The end of a step stores 0 in the place of r0 (R24). -/
theorem State.endStep_regs_zero (s u : State) : (s.endStep u).regs[0] = 0#16 := by simp

/-- Settles O21: writing r0 is the only register write such an instruction makes, and the end of the step adds only 0 in r0's place. -/
theorem writeToRegisterZeroIsDiscarded : Obligations.WriteToRegisterZeroIsDiscarded := by
  constructor
  · intro i s hd
    obtain ⟨v, target, u, he, hw⟩ := exec_effect_of_dest i s 0 hd
    exact ⟨u, he, u.readReg_zero, hw.readReg_of_zero⟩
  · intro s t hhost hd hstep
    obtain ⟨v, target, u, he, hw⟩ := exec_effect_of_dest _ s.beginStep 0 hd
    have hu : u.host = [] := hw.around.host.trans hhost
    obtain rfl : s.endStep u = t := Host.Outcome.next.inj ((step_eq_endStep s u hu he).symm.trans hstep)
    refine ⟨s.endStep_regs_zero u, fun r => ?_⟩
    calc (s.endStep u).readReg r = u.readReg r := s.endStep_readReg r u
      _ = s.beginStep.readReg r := hw.readReg_of_zero r
      _ = s.readReg r := s.beginStep_readReg r

end Sys2Proof.Machine

/-! PROOFS for 30_encoding.md: under an opcode map that is a bijection, the opcode field is a name of the instruction. -/

namespace Sys2Proof

/-- The instruction a record names has the record's mnemonic (R66). -/
@[simp] theorem Decoded.toInstr_mnemonic (d : Decoded) : d.toInstr.mnemonic = d.mnemonic := by
  obtain ⟨mn, _⟩ := d
  cases mn <;> rfl

/-- In every format the decoded record holds the mnemonic at the opcode field (R65). -/
@[simp] theorem decodeRecord_mnemonic (m : OpcodeMap) (w : Word) :
    (decodeRecord m w).mnemonic = m.mnemonicAt (fieldOpcode w) := by
  simp only [decodeRecord]
  split <;> rfl

/-- A word decodes to the mnemonic its opcode field selects, whatever its other bits are (R57). -/
theorem decode_mnemonic (m : OpcodeMap) (w : Word) : (decode m w).mnemonic = m.mnemonicAt (fieldOpcode w) := by
  rw [decode, Decoded.toInstr_mnemonic, decodeRecord_mnemonic]

/-- A mnemonic has one opcode value in a map that is a bijection: its place in the table (R57, R64). -/
theorem OpcodeMap.mnemonicAt_eq_iff (m : OpcodeMap) (hm : m.bijective) (o : BitVec 5) (mn : Mnemonic) :
    m.mnemonicAt o = mn ↔ o = m.opcodeOf mn := by
  constructor
  · rintro rfl
    exact (m.opcodeOf_mnemonicAt hm o).symm
  · rintro rfl
    exact m.mnemonicAt_opcodeOf hm mn

/-- Settles O2: the place of a mnemonic in the table is its one opcode value, and a decoded word's mnemonic is read from the opcode
field alone. -/
theorem opcodeAloneSelectsTheInstruction : Obligations.OpcodeAloneSelectsTheInstruction := by
  intro m hm
  refine ⟨fun mn => ?_, decode_mnemonic m, fun w w' hopc => ?_⟩
  · exact ⟨m.opcodeOf mn, (m.mnemonicAt_eq_iff hm _ mn).2 rfl, fun o => (m.mnemonicAt_eq_iff hm o mn).1⟩
  · calc (decode m w).mnemonic = m.mnemonicAt (fieldOpcode w) := decode_mnemonic m w
      _ = m.mnemonicAt (fieldOpcode w') := congrArg m.mnemonicAt hopc
      _ = (decode m w').mnemonic := (decode_mnemonic m w').symm

end Sys2Proof

/-! PROOFS for 40_integer.md: what an R-format or I-format word decodes to, what an instruction that ends in `writeAndGo` to the next
address does, and the ALU results as arithmetic on the values of the sources. -/

namespace Sys2Proof.Machine

/-! ### Words of R and I format -/

section
variable {mn : Mnemonic}

/-- In R format the record that is read has its three registers in bits [10:8], [7:5] and [4:2] (R56, R58). -/
theorem decode_of_formatR (hf : mn.format = .R) (m : OpcodeMap) (w : Word) (h : m.mnemonicAt (fieldOpcode w) = mn) :
    decode m w = (Decoded.mk mn .R (fieldHigh w) (fieldMid w) (fieldLow w) (immediateOf mn.immKind w)).toInstr := by
  subst h
  simp only [decode, decodeRecord, hf]

/-- In I format the record that is read has rd in bits [10:8], rs1 in [7:5] and the extension of bits [4:0] (R56, R59). -/
theorem decode_of_formatI (hf : mn.format = .I) (m : OpcodeMap) (w : Word) (h : m.mnemonicAt (fieldOpcode w) = mn) :
    decode m w = (Decoded.mk mn .I (fieldHigh w) (fieldMid w) 0 (immediateOf mn.immKind w)).toInstr := by
  subst h
  simp only [decode, decodeRecord, hf]

theorem decodesFormatR {mk : Reg → Reg → Reg → Instr} (hf : mn.format = .R)
    (hmk : ∀ rd rs1 rs2 imm, (Decoded.mk mn .R rd rs1 rs2 imm).toInstr = mk rd rs1 rs2) : DecodesFormatR mn mk :=
  fun m w h => (decode_of_formatR hf m w h).trans (hmk _ _ _ _)

variable {mk : Reg → Reg → Word → Instr}

theorem decodesFormatISigned (hf : mn.format = .I) (hk : mn.immKind = .sext5)
    (hmk : ∀ rd rs1 imm, (Decoded.mk mn .I rd rs1 0 imm).toInstr = mk rd rs1 imm) : DecodesFormatISigned mn mk := by
  intro m w h
  rw [decode_of_formatI hf m w h, hk]
  exact hmk _ _ _

theorem decodesFormatIUnsigned (hf : mn.format = .I) (hk : mn.immKind = .zext5)
    (hmk : ∀ rd rs1 imm, (Decoded.mk mn .I rd rs1 0 imm).toInstr = mk rd rs1 imm) : DecodesFormatIUnsigned mn mk := by
  intro m w h
  rw [decode_of_formatI hf m w h, hk]
  exact hmk _ _ _

end

/-! ### Instructions that write one register and advance (R75) -/

section
variable {i : Instr} {s : State} {rd : Reg} {v : Word}

/-- The whole effect of an instruction whose meaning is to write `v` to rd and go to the next address. -/
theorem exec_effect_of_writeAndGo (h : exec i s = writeAndGo rd v s.nextPc s) :
    ∃ t, exec i s = .next t ∧ WritesRegister rd v (addressAfter s) s t := by
  rw [h, ← s.nextPc_eq]
  exact writeAndGo_effect rd v s.nextPc s

/-- The same where the written value is known by a property it has. -/
theorem exec_effect_of_writeAndGo_of_prop {P : Word → Prop} (h : exec i s = writeAndGo rd v s.nextPc s) (hv : P v) :
    ∃ t v, exec i s = .next t ∧ WritesRegister rd v (addressAfter s) s t ∧ P v := by
  obtain ⟨t, he, hw⟩ := exec_effect_of_writeAndGo h
  exact ⟨t, v, he, hw, hv⟩

end

/-! ### ALU results as arithmetic -/

section
variable (a b : Word)

/-- The exact sum mod 65536 (R78). -/
theorem ofNat_toNat_add_toNat : BitVec.ofNat 16 (a.toNat + b.toNat) = a + b := by
  simp [BitVec.ofNat_add]

/-- The exact difference mod 65536 (R79). -/
theorem ofInt_toNat_sub_toNat : BitVec.ofInt 16 (a.toNat - b.toNat) = a - b := by
  simp [Int.sub_eq_add_neg, BitVec.ofInt_add, BitVec.ofInt_neg, BitVec.sub_eq_add_neg]

/-- The unsigned base plus the signed immediate mod 65536 (R88). -/
theorem ofInt_toNat_add_toInt : BitVec.ofInt 16 (a.toNat + b.toInt) = a + b := by
  simp [BitVec.ofInt_add]

/-- The 0 or 1 of a signed comparison (R12, R86). -/
theorem bool01_lessSigned : bool01 (lessSigned a b) = if a.toInt < b.toInt then 1#16 else 0#16 := by
  simp [bool01, lessSigned]

/-- The 0 or 1 of an unsigned comparison (R12, R87). -/
theorem bool01_lessUnsigned : bool01 (lessUnsigned a b) = if a.toNat < b.toNat then 1#16 else 0#16 := by
  simp [bool01, lessUnsigned]

variable {a b}

/-- A mask of 5 bits leaves no bit of [15:5] (R89). -/
theorem toNat_and_lt_of_lt (hb : b.toNat < 32) : (a &&& b).toNat < 32 := by
  rw [BitVec.toNat_and]
  exact Nat.and_le_right.trans_lt hb

/-- An operand of 5 bits leaves bits [15:5] to the other under Or (R90). -/
theorem toNat_or_div_of_lt (hb : b.toNat < 32) : (a ||| b).toNat / 32 = a.toNat / 32 := by
  have h := Nat.or_div_two_pow (a := a.toNat) (b := b.toNat) (n := 5)
  simpa [Nat.div_eq_of_lt hb] using h

/-- An operand of 5 bits leaves bits [15:5] to the other under Xor (R91). -/
theorem toNat_xor_div_of_lt (hb : b.toNat < 32) : (a ^^^ b).toNat / 32 = a.toNat / 32 := by
  have h := Nat.xor_div_two_pow (a := a.toNat) (b := b.toNat) (n := 5)
  simpa [Nat.div_eq_of_lt hb] using h

end

/-! ### The obligations -/

/-- Settles O26: the exact sum or difference reduced mod 2^16 is the one of 16-bit words. -/
theorem addSubAddiResults : Obligations.AddSubAddiResults := by
  refine ⟨decodesFormatR rfl fun _ _ _ _ => rfl, decodesFormatR rfl fun _ _ _ _ => rfl,
    decodesFormatISigned rfl rfl fun _ _ _ => rfl, fun s rd rs1 rs2 imm => ⟨?_, ?_, ?_⟩⟩
  · rw [ofNat_toNat_add_toNat]
    exact exec_effect_of_writeAndGo rfl
  · rw [ofInt_toNat_sub_toNat]
    exact exec_effect_of_writeAndGo rfl
  · rw [ofInt_toNat_add_toInt]
    exact exec_effect_of_writeAndGo rfl

/-- Settles O27: the value each of the three writes is the bitwise one. -/
theorem andOrXorResults : Obligations.AndOrXorResults := by
  refine ⟨decodesFormatR rfl fun _ _ _ _ => rfl, decodesFormatR rfl fun _ _ _ _ => rfl,
    decodesFormatR rfl fun _ _ _ _ => rfl, fun s rd rs1 rs2 => ⟨?_, ?_, ?_⟩⟩
  · exact exec_effect_of_writeAndGo_of_prop rfl fun _ => BitVec.getLsbD_and
  · exact exec_effect_of_writeAndGo_of_prop rfl fun _ => BitVec.getLsbD_or
  · exact exec_effect_of_writeAndGo_of_prop rfl fun _ => BitVec.getLsbD_xor

/-- Settles O28: as for the register forms, and an immediate below 32 has no bit in [15:5]. -/
theorem andiOriXoriResults : Obligations.AndiOriXoriResults := by
  refine ⟨decodesFormatIUnsigned rfl rfl fun _ _ _ => rfl, decodesFormatIUnsigned rfl rfl fun _ _ _ => rfl,
    decodesFormatIUnsigned rfl rfl fun _ _ _ => rfl, fun s rd rs1 imm => ⟨?_, ?_, ?_⟩⟩
  · exact exec_effect_of_writeAndGo_of_prop rfl ⟨fun _ => BitVec.getLsbD_and, toNat_and_lt_of_lt⟩
  · exact exec_effect_of_writeAndGo_of_prop rfl ⟨fun _ => BitVec.getLsbD_or, toNat_or_div_of_lt⟩
  · exact exec_effect_of_writeAndGo_of_prop rfl ⟨fun _ => BitVec.getLsbD_xor, toNat_xor_div_of_lt⟩

/-- Settles O32: the value each of the two writes is the 0 or 1 of its comparison. -/
theorem sltSltuResults : Obligations.SltSltuResults := by
  refine ⟨decodesFormatR rfl fun _ _ _ _ => rfl, decodesFormatR rfl fun _ _ _ _ => rfl, fun s rd rs1 rs2 => ⟨?_, ?_⟩⟩
  · rw [← bool01_lessSigned]
    exact exec_effect_of_writeAndGo rfl
  · rw [← bool01_lessUnsigned]
    exact exec_effect_of_writeAndGo rfl

/-- Settles O33: the comparison with the immediate, whose extension is sext_5 for Slti and zext_5 for Sltiu. -/
theorem sltiSltiuResults : Obligations.SltiSltiuResults := by
  refine ⟨decodesFormatISigned rfl rfl fun _ _ _ => rfl, decodesFormatIUnsigned rfl rfl fun _ _ _ => rfl,
    fun s rd rs1 imm => ⟨?_, ?_⟩⟩
  · rw [← bool01_lessSigned]
    exact exec_effect_of_writeAndGo rfl
  · rw [← bool01_lessUnsigned]
    exact exec_effect_of_writeAndGo rfl

end Sys2Proof.Machine

/-! PROOFS for 41_load_store.md: the displaced base as an integer mod 65536, and the registers an instruction does not write. -/

namespace Sys2Proof.Machine

/-! ### The effective address (R98) -/

/-- A 5-bit field read as signed is -16 to 15. -/
theorem toInt_bounds_five (f : BitVec 5) : -16 ≤ f.toInt ∧ f.toInt ≤ 15 :=
  ⟨BitVec.le_toInt f, Int.le_of_lt_add_one (BitVec.toInt_lt (x := f))⟩

/-- The value of an effective address is the unsigned base plus the signed displacement, mod 65536 (R98). -/
theorem effectiveAddress_toNat (s : State) (rs1 : Reg) (imm : Word) :
    ((effectiveAddress s rs1 imm).toNat : Int) = ((s.readReg rs1).toNat + imm.toInt) % 65536 := by
  rw [effectiveAddress, ← ofInt_toNat_add_toInt, BitVec.toNat_ofInt]
  exact Int.toNat_of_nonneg (Int.emod_nonneg _ (by decide))

/-! ### Registers an instruction does not write (R25, R36) -/

/-- Writing another register leaves a register as it was. -/
theorem WritesRegister.readReg_of_ne {rd r : Reg} {v target : Word} {s u : State} (h : WritesRegister rd v target s u)
    (hr : r ≠ rd) : u.readReg r = s.readReg r := by
  rw [h.regs, if_neg fun hw => hr hw.1]

/-- Every instruction completes, and a register that is not its destination is left as it was (R25, R36). -/
theorem exec_readReg_of_dest_ne (i : Instr) (s : State) (r : Reg) (hd : i.dest ≠ some r) :
    ∃ t, exec i s = .next t ∧ t.readReg r = s.readReg r := by
  obtain ⟨rd, v, target, hrd, -, -, he⟩ | ⟨target, -, -, -, he⟩ | ⟨_, _, _, -, he⟩ | ⟨_, _, _, -, he⟩ := exec_cases i s
  · obtain ⟨t, ht, hw⟩ := writeAndGo_effect rd v target s
    exact ⟨t, he.trans ht, hw.readReg_of_ne fun h => hd (h ▸ hrd)⟩
  · obtain ⟨t, ht, hg⟩ := goTo_effect target s
    exact ⟨t, he.trans ht, hg.regs r⟩
  · obtain ⟨t, ht, hf, -⟩ := goTo_byteWrite_effect _ _ s
    exact ⟨t, he.trans ht, hf.regs r⟩
  · obtain ⟨t, ht, hf, -⟩ := goTo_wordWrite_effect _ _ s
    exact ⟨t, he.trans ht, hf.regs r⟩

/-- The destination of a load is its rd field (R25). -/
theorem dest_of_mem_loads {i : Instr} {rd rs1 : Reg} {imm : Word}
    (hi : i ∈ [Instr.lb rd rs1 imm, .lbu rd rs1 imm, .lw rd rs1 imm]) : i.dest = some rd := by
  simp only [List.mem_cons, List.not_mem_nil, or_false] at hi
  obtain rfl | rfl | rfl := hi <;> rfl

/-- A store has no destination register (R25). -/
theorem dest_of_mem_stores {i : Instr} {rd rs1 : Reg} {imm : Word}
    (hi : i ∈ [Instr.sb rd rs1 imm, .sw rd rs1 imm]) : i.dest = none := by
  simp only [List.mem_cons, List.not_mem_nil, or_false] at hi
  obtain rfl | rfl := hi <;> rfl

/-- Settles O34: sign extension keeps the displacement, and the base is not the destination, of a load by hypothesis, of a store because
it has none. -/
theorem effectiveAddressIsBasePlusSignedDisplacement : Obligations.EffectiveAddressIsBasePlusSignedDisplacement := by
  refine ⟨fun s rs1 f => ?_, fun s rd rs1 imm => ⟨fun hne i hi => ?_, fun i hi => ?_⟩⟩
  · obtain ⟨hlow, hhigh⟩ := toInt_bounds_five f
    have hkeep : (f.signExtend 16).toInt = f.toInt := BitVec.toInt_signExtend_of_le (by decide)
    exact ⟨hlow, hhigh, hkeep ▸ effectiveAddress_toNat s rs1 (f.signExtend 16)⟩
  · refine exec_readReg_of_dest_ne i s rs1 fun h => hne ?_
    exact Option.some.inj ((dest_of_mem_loads hi).symm.trans h)
  · refine exec_readReg_of_dest_ne i s rs1 fun h => ?_
    cases (dest_of_mem_stores hi).symm.trans h

end Sys2Proof.Machine

/-! PROOFS for 42_control.md: what a B-format word decodes to, what an instruction that ends in `branchIf` does, and the branch
conditions as comparisons of register values. -/

namespace Sys2Proof.Machine

/-! ### Words of B format -/

/-- In B format the record that is read has rs1 in bits [10:8], rs2 in [7:5] and the extension of bits [4:0] (R56, R61). -/
theorem decode_of_formatB {mn : Mnemonic} (hf : mn.format = .B) (m : OpcodeMap) (w : Word)
    (h : m.mnemonicAt (fieldOpcode w) = mn) :
    decode m w = (Decoded.mk mn .B 0 (fieldHigh w) (fieldMid w) (immediateOf mn.immKind w)).toInstr := by
  subst h
  simp only [decode, decodeRecord, hf]

theorem decodesFormatB {mn : Mnemonic} {mk : Reg → Reg → Word → Instr} (hf : mn.format = .B) (hk : mn.immKind = .sext5)
    (hmk : ∀ rs1 rs2 imm, (Decoded.mk mn .B 0 rs1 rs2 imm).toInstr = mk rs1 rs2 imm) : DecodesFormatB mn mk := by
  intro m w h
  rw [decode_of_formatB hf m w h, hk]
  exact hmk _ _ _

/-! ### Conditional branches (R104) -/

/-- The whole effect of a conditional branch whose tested Boolean says `P`: it goes to pc plus the offset where `P` holds and to the
next address where it does not. -/
theorem exec_effect_of_branchIf {i : Instr} {s : State} {taken : Bool} {imm : Word} {P : Prop} [Decidable P]
    (h : exec i s = branchIf taken imm s) (hP : taken = true ↔ P) :
    ∃ t, exec i s = .next t ∧ OnlyGoesTo (if P then addressFrom s imm else addressAfter s) s t := by
  simp only [h, ← hP, ← relativeTarget_eq, ← s.nextPc_eq]
  exact branchIf_effect taken imm s

/-! ### Branch conditions as comparisons of values -/

section
variable (a b : Word)

/-- Words are equal when their values are (R107). -/
theorem beq_iff_toNat_eq : (a == b) = true ↔ a.toNat = b.toNat :=
  beq_iff_eq.trans BitVec.toNat_inj.symm

/-- Words differ when their values do (R108). -/
theorem bne_iff_toNat_ne : (a != b) = true ↔ ¬ a.toNat = b.toNat :=
  bne_iff_ne.trans (not_congr BitVec.toNat_inj.symm)

/-- The condition of Blt (R12, R109). -/
theorem lessSigned_iff : lessSigned a b = true ↔ a.toInt < b.toInt :=
  decide_eq_true_iff

/-- The condition of Bge, which equal operands meet (R12, R110). -/
theorem not_lessSigned_iff : (!lessSigned a b) = true ↔ a.toInt ≥ b.toInt := by
  rw [Bool.not_eq_true', ← Bool.not_eq_true, lessSigned_iff, not_lt]

/-- The condition of Bltu (R12, R111). -/
theorem lessUnsigned_iff : lessUnsigned a b = true ↔ a.toNat < b.toNat :=
  decide_eq_true_iff

/-- The condition of Bgeu, which equal operands meet (R12, R112). -/
theorem not_lessUnsigned_iff : (!lessUnsigned a b) = true ↔ a.toNat ≥ b.toNat := by
  rw [Bool.not_eq_true', ← Bool.not_eq_true, lessUnsigned_iff, not_lt]

end

/-! ### The obligations -/

/-- Settles O44: equality of registers is equality of their values, and Bne is taken where Beq is not. -/
theorem beqBneEffect : Obligations.BeqBneEffect := by
  refine ⟨decodesFormatB rfl rfl fun _ _ _ => rfl, decodesFormatB rfl rfl fun _ _ _ => rfl, fun s rs1 rs2 imm => ⟨?_, ?_⟩⟩
  · exact exec_effect_of_branchIf rfl (beq_iff_toNat_eq _ _)
  · rw [← ite_not]
    exact exec_effect_of_branchIf rfl (bne_iff_toNat_ne _ _)

/-- Settles O45: Blt tests the signed comparison, Bge its negation. -/
theorem bltBgeEffect : Obligations.BltBgeEffect := by
  refine ⟨decodesFormatB rfl rfl fun _ _ _ => rfl, decodesFormatB rfl rfl fun _ _ _ => rfl, fun s rs1 rs2 imm => ⟨?_, ?_⟩⟩
  · exact exec_effect_of_branchIf rfl (lessSigned_iff _ _)
  · exact exec_effect_of_branchIf rfl (not_lessSigned_iff _ _)

/-- Settles O46: Bltu tests the unsigned comparison, Bgeu its negation. -/
theorem bltuBgeuEffect : Obligations.BltuBgeuEffect := by
  refine ⟨decodesFormatB rfl rfl fun _ _ _ => rfl, decodesFormatB rfl rfl fun _ _ _ => rfl, fun s rs1 rs2 imm => ⟨?_, ?_⟩⟩
  · exact exec_effect_of_branchIf rfl (lessUnsigned_iff _ _)
  · exact exec_effect_of_branchIf rfl (not_lessUnsigned_iff _ _)

end Sys2Proof.Machine

/-! PROOFS for 30_encoding.md sections 2 to 8: the shape of a decoded record, the two directions of the field round trip, and what the
assembler refuses. -/

namespace Sys2Proof

/-! ### The record of an instruction and of a word (R65, R66) -/

/-- An instruction is the one its record names, one constructor at a time. -/
@[simp] theorem Instr.toInstr_toDecoded (i : Instr) : i.toDecoded.toInstr = i := by cases i <;> rfl

/-- The record of the decoded instruction is the record that was read from the word: no field is lost between the two. -/
@[simp] theorem decode_toDecoded (m : OpcodeMap) (w : Word) : (decode m w).toDecoded = decodeRecord m w := by
  unfold decode decodeRecord
  cases m.mnemonicAt (fieldOpcode w) <;> rfl

theorem decodeRecord_format (m : OpcodeMap) (w : Word) :
    (decodeRecord m w).format = (m.mnemonicAt (fieldOpcode w)).format := by
  simp only [decodeRecord]
  split <;> simp only [*]

theorem decodeRecord_imm (m : OpcodeMap) (w : Word) :
    (decodeRecord m w).imm = immediateOf (m.mnemonicAt (fieldOpcode w)).immKind w := by
  simp only [decodeRecord]
  split <;> rfl

/-- The record of an instruction by its format, with 0 in every field the format does not have (R58 to R61). -/
theorem Instr.toDecoded_cases (i : Instr) :
    (i.mnemonic.format = .R ∧ ∃ rd rs1 rs2, i.toDecoded = ⟨i.mnemonic, .R, rd, rs1, rs2, 0#16⟩) ∨
    (i.mnemonic.format = .I ∧ ∃ rd rs1 imm, i.toDecoded = ⟨i.mnemonic, .I, rd, rs1, 0, imm⟩) ∨
    (i.mnemonic.format = .J ∧ ∃ rd imm, i.toDecoded = ⟨i.mnemonic, .J, rd, 0, 0, imm⟩) ∨
    (i.mnemonic.format = .B ∧ ∃ rs1 rs2 imm, i.toDecoded = ⟨i.mnemonic, .B, 0, rs1, rs2, imm⟩) := by
  cases i with
  | add | sub | and | or | xor | sll | srl | sra | slt | sltu => exact .inl ⟨rfl, _, _, _, rfl⟩
  | jmp => exact .inr (.inr (.inl ⟨rfl, _, _, rfl⟩))
  | beq | bne | blt | bge | bltu | bgeu => exact .inr (.inr (.inr ⟨rfl, _, _, _, rfl⟩))
  | _ => exact .inr (.inl ⟨rfl, _, _, _, rfl⟩)

/-! ### The immediates of a format (R62, R63) -/

section
variable {mn : Mnemonic}

theorem Mnemonic.immKind_of_formatR : mn.format = .R → mn.immKind = .none := by cases mn <;> decide
theorem Mnemonic.immKind_of_formatI : mn.format = .I → mn.immKind = .zext5 ∨ mn.immKind = .sext5 := by
  cases mn <;> decide
theorem Mnemonic.immKind_of_formatJ : mn.format = .J → mn.immKind = .sext8 := by cases mn <;> decide
theorem Mnemonic.immKind_of_formatB : mn.format = .B → mn.immKind = .sext5 := by cases mn <;> decide

end

section
variable (o : BitVec 5) (a b : Reg) (v : Word)

/-- A 5-bit immediate in its range is the extension of the field it is encoded in (R70). -/
theorem immediateOf_encodeI {k : ImmKind} (hk : k = .zext5 ∨ k = .sext5) (h : k.admits v = true) :
    immediateOf k (encodeI o a b v) = v := by
  obtain ⟨-, -, -, hfield⟩ := encodeI_fields o a b v
  obtain rfl | rfl := hk
  · exact (congrArg zext5 hfield).trans (zext5_immField5 v h)
  · exact (congrArg sext5 hfield).trans (sext5_immField5 v h)

/-- The 8-bit immediate of Jmp in its range is the extension of the field it is encoded in (R70). -/
theorem immediateOf_encodeJ (h : ImmKind.sext8.admits v = true) : immediateOf .sext8 (encodeJ o a v) = v := by
  obtain ⟨-, -, hfield⟩ := encodeJ_fields o a v
  exact (congrArg sext8 hfield).trans (sext8_immField8 v h)

end

/-! ### Decoding an encoded word (R70) -/

/-- In J format the record that is read has rd in bits [10:8] and the extension of bits [7:0] (R56, R60). -/
theorem decode_of_formatJ {mn : Mnemonic} (hf : mn.format = .J) (m : OpcodeMap) (w : Word)
    (h : m.mnemonicAt (fieldOpcode w) = mn) :
    decode m w = (Decoded.mk mn .J (fieldHigh w) 0 0 (immediateOf mn.immKind w)).toInstr := by
  subst h
  simp only [decode, decodeRecord, hf]

section
variable {m : OpcodeMap} (hm : m.bijective) {mn : Mnemonic} (a b c : Reg) (v : Word)
include hm

theorem decode_encodeR (hf : mn.format = .R) :
    decode m (encodeR (m.opcodeOf mn) a b c) = (Decoded.mk mn .R a b c 0#16).toInstr := by
  obtain ⟨ho, ha, hb, hc⟩ := encodeR_fields (m.opcodeOf mn) a b c
  rw [Machine.decode_of_formatR hf m _ ((m.mnemonicAt_eq_iff hm _ mn).2 ho), ha, hb, hc,
    Mnemonic.immKind_of_formatR hf, immediateOf]

theorem decode_encodeI (hf : mn.format = .I) (hv : mn.immKind.admits v = true) :
    decode m (encodeI (m.opcodeOf mn) a b v) = (Decoded.mk mn .I a b 0 v).toInstr := by
  obtain ⟨ho, ha, hb, -⟩ := encodeI_fields (m.opcodeOf mn) a b v
  rw [Machine.decode_of_formatI hf m _ ((m.mnemonicAt_eq_iff hm _ mn).2 ho), ha, hb,
    immediateOf_encodeI _ _ _ _ (Mnemonic.immKind_of_formatI hf) hv]

theorem decode_encodeJ (hf : mn.format = .J) (hv : mn.immKind.admits v = true) :
    decode m (encodeJ (m.opcodeOf mn) a v) = (Decoded.mk mn .J a 0 0 v).toInstr := by
  obtain ⟨ho, ha, -⟩ := encodeJ_fields (m.opcodeOf mn) a v
  have hk := Mnemonic.immKind_of_formatJ hf
  rw [decode_of_formatJ hf m _ ((m.mnemonicAt_eq_iff hm _ mn).2 ho), ha, hk, immediateOf_encodeJ _ _ _ (hk ▸ hv)]

theorem decode_encodeB (hf : mn.format = .B) (hv : mn.immKind.admits v = true) :
    decode m (encodeI (m.opcodeOf mn) a b v) = (Decoded.mk mn .B 0 a b v).toInstr := by
  obtain ⟨ho, ha, hb, -⟩ := encodeI_fields (m.opcodeOf mn) a b v
  rw [Machine.decode_of_formatB hf m _ ((m.mnemonicAt_eq_iff hm _ mn).2 ho), ha, hb,
    immediateOf_encodeI _ _ _ _ (.inr (Mnemonic.immKind_of_formatB hf)) hv]

end

/-- Settles O4: format by format, each field of the encoded word reads back, and the immediate is the extension of its field. -/
theorem decodeOfEncodeIsTheInstruction : Obligations.DecodeOfEncodeIsTheInstruction := by
  intro m i hm hwf
  unfold Instr.wf at hwf
  refine Eq.trans ?_ i.toInstr_toDecoded
  obtain ⟨hf, rd, rs1, rs2, hd⟩ | ⟨hf, rd, rs1, imm, hd⟩ | ⟨hf, rd, imm, hd⟩ | ⟨hf, rs1, rs2, imm, hd⟩ :=
    i.toDecoded_cases <;>
    rw [hd] at hwf <;> simp only [encode, hd, encodeRecord]
  · exact decode_encodeR hm rd rs1 rs2 hf
  · exact decode_encodeI hm rd rs1 imm hf hwf
  · exact decode_encodeJ hm rd imm hf hwf
  · exact decode_encodeB hm rs1 rs2 imm hf hwf

/-! ### Encoding a decoded word (R70) -/

/-- A mask that keeps the bits from `k` up clears the others. -/
theorem and_highMask {n : Nat} (w : BitVec n) (k : Nat) : w &&& (BitVec.allOnes n <<< k) = (w >>> k) <<< k := by
  apply BitVec.eq_of_getLsbD_eq
  intro j hj
  by_cases hk : j < k
  · simp [hj, hk]
  · have hkeep : k + (j - k) = j := by omega
    simp [hj, hk, hkeep]

/-- The value a word has with its bits below `k` cleared. -/
theorem toNat_and_highMask (w : Word) (k : Nat) : (w &&& (BitVec.allOnes 16 <<< k)).toNat = w.toNat / 2 ^ k * 2 ^ k := by
  have hle : w.toNat / 2 ^ k * 2 ^ k < 2 ^ 16 := (Nat.div_mul_le_self _ _).trans_lt w.isLt
  rw [and_highMask, BitVec.toNat_shiftLeft, BitVec.toNat_ushiftRight, Nat.shiftRight_eq_div_pow, Nat.shiftLeft_eq,
    Nat.mod_eq_of_lt hle]

section
variable (w : Word)

theorem encodeR_fields_of_word :
    encodeR (fieldOpcode w) (fieldHigh w) (fieldMid w) (fieldLow w) = w &&& 0xFFFC#16 := by
  apply BitVec.eq_of_toNat_eq
  have hmask : (w &&& 0xFFFC#16).toNat = w.toNat / 4 * 4 := toNat_and_highMask w 2
  rw [encodeR_toNat, hmask, fieldOpcode_toNat, fieldHigh_val, fieldMid_val, fieldLow_val]
  omega

theorem encodeI_fields_of_word {k : ImmKind} (hk : k = .zext5 ∨ k = .sext5) :
    encodeI (fieldOpcode w) (fieldHigh w) (fieldMid w) (immediateOf k w) = w := by
  have himm : immField5 (immediateOf k w) = fieldImm5 w := by
    obtain rfl | rfl := hk
    · exact immField5_zext5 _
    · exact immField5_sext5 _
  apply BitVec.eq_of_toNat_eq
  rw [encodeI_toNat, ← immField5_toNat, himm, fieldOpcode_toNat, fieldHigh_val, fieldMid_val, fieldImm5_toNat]
  omega

theorem encodeJ_fields_of_word : encodeJ (fieldOpcode w) (fieldHigh w) (immediateOf .sext8 w) = w := by
  have himm : immField8 (immediateOf .sext8 w) = fieldImm8 w := immField8_sext8 _
  apply BitVec.eq_of_toNat_eq
  rw [encodeJ_toNat, ← immField8_toNat, himm, fieldOpcode_toNat, fieldHigh_val, fieldImm8_toNat]
  omega

end

/-- Every decoded word is a well-formed instruction: an extended field is in the range of its kind (R62, R74). -/
theorem wf_decode (m : OpcodeMap) (w : Word) : (decode m w).wf = true := by
  rw [Instr.wf, decode_mnemonic, decode_toDecoded, decodeRecord_imm]
  exact admits_immediateOf _ w

/-- The word of a decoded word, format by format. -/
theorem encode_decode (m : OpcodeMap) (hm : m.bijective) (w : Word) :
    encode m (decode m w) = if (m.mnemonicAt (fieldOpcode w)).format = .R then w &&& 0xFFFC#16 else w := by
  have ho := m.opcodeOf_mnemonicAt hm (fieldOpcode w)
  rw [encode, decode_toDecoded, decodeRecord]
  cases hf : (m.mnemonicAt (fieldOpcode w)).format <;> simp only [encodeRecord, ho, reduceCtorEq, if_true, if_false]
  · exact encodeR_fields_of_word w
  · exact encodeI_fields_of_word w (Mnemonic.immKind_of_formatI hf)
  · rw [Mnemonic.immKind_of_formatJ hf]
    exact encodeJ_fields_of_word w
  · exact encodeI_fields_of_word w (.inr (Mnemonic.immKind_of_formatB hf))

/-- Settles O5: the opcode's place gives the opcode back, and the fields of a word make up the word again. -/
theorem encodeOfDecodeIsTheWord : Obligations.EncodeOfDecodeIsTheWord := by
  intro m w hm
  rw [decode_toDecoded, decodeRecord_format]
  exact ⟨wf_decode m w, encode_decode m hm w⟩

/-! ### The decoded record field by field (R65) -/

/-- The value of a zero-extended 5-bit field (R13). -/
theorem zext5_toInt (f : BitVec 5) : (zext5 f).toInt = f.toNat := by
  rw [zext5, BitVec.toInt_setWidth, Int.bmod_eq_of_le (by omega) (by omega)]

/-- The value of a sign-extended 5-bit field (R13). -/
theorem sext5_toInt (f : BitVec 5) : (sext5 f).toInt = if f.toNat < 16 then (f.toNat : Int) else (f.toNat : Int) - 32 := by
  rw [sext5, BitVec.toInt_signExtend_of_le (by decide), BitVec.toInt_eq_toNat_cond]
  split <;> split <;> omega

/-- The value of a sign-extended byte (R13). -/
theorem sext8_toInt (f : BitVec 8) :
    (sext8 f).toInt = if f.toNat < 128 then (f.toNat : Int) else (f.toNat : Int) - 256 := by
  rw [sext8, BitVec.toInt_signExtend_of_le (by decide), BitVec.toInt_eq_toNat_cond]
  split <;> split <;> omega

/-- The I-format instructions whose immediate is zero-extended (R62). -/
theorem Mnemonic.mem_zext5_iff (mn : Mnemonic) :
    mn ∈ [Mnemonic.andi, .ori, .xori, .slli, .srli, .srai, .sltiu] ↔ mn.immKind = .zext5 := by
  cases mn <;> decide

section
variable (w : Word)

theorem immediateOf_zext5_toInt : (immediateOf .zext5 w).toInt = ((w.toNat % 32 : Nat) : Int) := by
  rw [immediateOf, zext5_toInt, fieldImm5_toNat]

theorem immediateOf_sext5_toInt :
    (immediateOf .sext5 w).toInt =
      if w.toNat % 32 < 16 then ((w.toNat % 32 : Nat) : Int) else ((w.toNat % 32 : Nat) : Int) - 32 := by
  rw [immediateOf, sext5_toInt, fieldImm5_toNat]

theorem immediateOf_sext8_toInt :
    (immediateOf .sext8 w).toInt =
      if w.toNat % 256 < 128 then ((w.toNat % 256 : Nat) : Int) else ((w.toNat % 256 : Nat) : Int) - 256 := by
  rw [immediateOf, sext8_toInt, fieldImm8_toNat]

end

/-- Settles O3: each field of the record is the extracted field of the word, as a number, and the kind of immediate is the one the
mnemonic has. -/
theorem decodedRecordFields : Obligations.DecodedRecordFields := by
  intro m w mn d hi mid low f5 f8 signed5 signed8
  have hd : d = decodeRecord m w := decode_toDecoded m w
  have himm : d.imm = immediateOf mn.immKind w := hd ▸ decodeRecord_imm m w
  refine ⟨hd, hd ▸ decodeRecord_mnemonic m w, hd ▸ decodeRecord_format m w, fun hf => ?_, fun hf => ?_, fun hf => ?_,
    fun hf => ?_⟩ <;>
    rw [himm] <;> simp only [hd, decodeRecord, show (m.mnemonicAt (fieldOpcode w)).format = _ from hf]
  · rw [Mnemonic.immKind_of_formatR hf]
    exact ⟨fieldHigh_val w, fieldMid_val w, fieldLow_val w, rfl⟩
  · refine ⟨fieldHigh_val w, fieldMid_val w, trivial, ?_⟩
    simp only [Mnemonic.mem_zext5_iff]
    obtain hk | hk := Mnemonic.immKind_of_formatI hf
    · rw [if_pos hk, hk]
      exact immediateOf_zext5_toInt w
    · rw [hk, if_neg (by decide)]
      exact immediateOf_sext5_toInt w
  · rw [Mnemonic.immKind_of_formatJ hf]
    exact ⟨fieldHigh_val w, trivial, trivial, immediateOf_sext8_toInt w⟩
  · rw [Mnemonic.immKind_of_formatB hf]
    exact ⟨trivial, fieldHigh_val w, fieldMid_val w, immediateOf_sext5_toInt w⟩

/-! ### What no field reads, and what no word says -/

/-- Every field but the immediates is read from bits [15:2]. -/
theorem fields_eq_of_extract_eq {w w' : Word} (h : w.extractLsb' 2 14 = w'.extractLsb' 2 14) :
    fieldOpcode w = fieldOpcode w' ∧ fieldHigh w = fieldHigh w' ∧ fieldMid w = fieldMid w' ∧ fieldLow w = fieldLow w' := by
  have hquot : w.toNat / 4 = w'.toNat / 4 := by
    have hnat := congrArg BitVec.toNat h
    simp only [BitVec.extractLsb'_toNat, Nat.shiftRight_eq_div_pow] at hnat
    omega
  refine ⟨BitVec.eq_of_toNat_eq ?_, Fin.ext ?_, Fin.ext ?_, Fin.ext ?_⟩ <;>
    simp only [fieldOpcode_toNat, fieldHigh_val, fieldMid_val, fieldLow_val] <;> omega

/-- Settles O6: an R-format record is read from bits [15:2] alone. -/
theorem reservedBitsAreIgnored : Obligations.ReservedBitsAreIgnored := by
  intro m w w' h hR
  obtain ⟨ho, ha, hb, hc⟩ := fields_eq_of_extract_eq h
  have hf : (m.mnemonicAt (fieldOpcode w)).format = .R := by rwa [decode_toDecoded, decodeRecord_format] at hR
  rw [Machine.decode_of_formatR hf m w rfl, Machine.decode_of_formatR hf m w' (by rw [ho]), ha, hb, hc,
    Mnemonic.immKind_of_formatR hf]
  rfl

/-- An instruction is some word's exactly if it is well formed (R74). -/
theorem exists_decode_eq_iff (m : OpcodeMap) (hm : m.bijective) (i : Instr) : (∃ w, decode m w = i) ↔ i.wf = true := by
  constructor
  · rintro ⟨w, rfl⟩
    exact wf_decode m w
  · exact fun hwf => ⟨encode m i, decodeOfEncodeIsTheInstruction m i hm hwf⟩

/-- Settles O7: what the assembler checks is being some word's, and what it writes is the encoded word. -/
theorem assemblerRefusesExactlyWhatNoWordIs : Obligations.AssemblerRefusesExactlyWhatNoWordIs := by
  intro m i hm
  unfold assemble
  constructor
  · rw [← not_exists, exists_decode_eq_iff m hm]
    split <;> simp [*]
  · intro w h
    split at h
    · next hwf =>
      obtain rfl := Option.some.inj h
      exact decodeOfEncodeIsTheInstruction m i hm hwf
    · cases h

/-- Settles O1: the nine words, decoded under REF_OPCODE_MAP. -/
theorem wordsOfTheSpecDecode : Obligations.WordsOfTheSpecDecode := by
  unfold Obligations.WordsOfTheSpecDecode
  decide

end Sys2Proof

/-! PROOFS for 30_encoding.md section 8: what the reader of assembly text accepts is in range, and what the writer writes is read back,
part by part. -/

namespace Sys2Proof

/-! ### A text that is read names a well-formed instruction (R74) -/

/-- The value of an integer that 16 signed bits hold. -/
theorem toInt_ofInt_of_bounds {v : Int} (h : -128 ≤ v ∧ v ≤ 127) : (BitVec.ofInt 16 v).toInt = v := by
  rw [BitVec.toInt_ofInt, Int.bmod_eq_of_le (by omega) (by omega)]

/-- The range check lets through what the kind of immediate admits, and nothing else. -/
theorem admits_of_checkedImm {k : ImmKind} {v : Int} {w : Word} (h : checkedImm k v = some w) : k.admits w = true := by
  unfold checkedImm at h
  split at h
  · next hr =>
    obtain rfl := Option.some.inj h
    have hbounds : -128 ≤ v ∧ v ≤ 127 := by cases k <;> simp only [ImmKind.range] at hr <;> omega
    have hv := toInt_ofInt_of_bounds hbounds
    cases k with
    | none =>
      obtain rfl : v = 0 := by simp only [ImmKind.range] at hr; omega
      rfl
    | zext5 =>
      have hnat : ((BitVec.ofInt 16 v).toNat : Int) = v := by
        rw [BitVec.toNat_ofInt]; simp only [ImmKind.range] at hr; omega
      simp only [ImmKind.range] at hr
      exact decide_eq_true (by omega)
    | sext5 => exact decide_eq_true (by rw [hv]; exact hr)
    | sext8 => exact decide_eq_true (by rw [hv]; exact hr)
  · cases h

theorem admits_of_parseImm {k : ImmKind} {t : List Char} {w : Word} (h : parseImm k t = some w) : k.admits w = true := by
  unfold parseImm at h
  split at h
  · obtain ⟨n, -, hn⟩ := Option.bind_eq_some_iff.1 h
    exact admits_of_checkedImm hn
  · obtain ⟨n, -, hn⟩ := Option.bind_eq_some_iff.1 h
    exact admits_of_checkedImm hn
  · cases h

/-- The immediate of the instruction a record names: R format has none. -/
theorem Decoded.toInstr_imm (d : Decoded) :
    d.toInstr.toDecoded.imm = if d.mnemonic.immKind = .none then 0#16 else d.imm := by
  obtain ⟨mn, _⟩ := d
  cases mn <;> rfl

theorem Decoded.wf_toInstr {d : Decoded} (h : d.mnemonic.immKind.admits d.imm = true) : d.toInstr.wf = true := by
  rw [Instr.wf, Decoded.toInstr_mnemonic, Decoded.toInstr_imm]
  split
  · next hk => rw [hk]; rfl
  · exact h

/-- Operands that are read make a well-formed instruction in every format. -/
theorem wf_of_parseOperands {mn : Mnemonic} {ops : List (List Char)} {i : Instr} (h : parseOperands mn ops = some i) :
    i.wf = true := by
  unfold parseOperands at h
  split at h <;> simp only [Option.bind_eq_some_iff, Option.map_eq_some_iff, reduceCtorEq] at h
  · next hf =>
    obtain ⟨rd, -, rs1, -, rs2, -, rfl⟩ := h
    exact Decoded.wf_toInstr (by rw [Mnemonic.immKind_of_formatR hf]; rfl)
  · obtain ⟨rd, -, rs1, -, imm, himm, rfl⟩ := h
    exact Decoded.wf_toInstr (admits_of_parseImm himm)
  · obtain ⟨rd, -, imm, himm, rfl⟩ := h
    exact Decoded.wf_toInstr (admits_of_parseImm himm)
  · obtain ⟨rs1, -, rs2, -, imm, himm, rfl⟩ := h
    exact Decoded.wf_toInstr (admits_of_parseImm himm)

theorem wf_of_parsePseudo {w : List Char} {ops : List (List Char)} {i : Instr} (h : parsePseudo w ops = some i) :
    i.wf = true := by
  unfold parsePseudo at h
  split at h
  · split at h
    · obtain rfl := Option.some.inj h; rfl
    · split at h
      · obtain rfl := Option.some.inj h; rfl
      · cases h
  · split at h
    · obtain ⟨off, hoff, rfl⟩ := Option.map_eq_some_iff.1 h
      exact admits_of_parseImm hoff
    · cases h
  · split at h
    · obtain ⟨rd, -, h⟩ := Option.bind_eq_some_iff.1 h
      obtain ⟨rs, -, rfl⟩ := Option.map_eq_some_iff.1 h
      rfl
    · cases h
  · cases h

theorem wf_of_parseInstr {t : List Char} {i : Instr} (h : parseInstr t = some i) : i.wf = true := by
  simp only [parseInstr] at h
  split at h
  · exact wf_of_parseOperands h
  · exact wf_of_parsePseudo h

/-! ### Texts without blanks and commas -/

/-- A character that separates nothing: no blank and no comma. -/
def IsPlainChar (c : Char) : Prop := isBlank c = false ∧ c ≠ ','

/-- A written part of an instruction: one or more characters that separate nothing. -/
def IsPlain (t : List Char) : Prop := t ≠ [] ∧ ∀ c ∈ t, IsPlainChar c

theorem isPlainChar_digitChar {d : Nat} (h : d < 10) : IsPlainChar (digitChar d) :=
  (by decide : ∀ k : Fin 10, isBlank (digitChar k) = false ∧ digitChar k ≠ ',') ⟨d, h⟩

/-- The decimal writer adds digits only. -/
theorem isPlainChar_of_mem_decimalDigits (k n : Nat) (acc : List Char) (hacc : ∀ c ∈ acc, IsPlainChar c) :
    ∀ c ∈ decimalDigits k n acc, IsPlainChar c := by
  induction k generalizing n acc with
  | zero => exact hacc
  | succ k ih =>
    unfold decimalDigits
    split
    · next hn => exact List.forall_mem_cons.2 ⟨isPlainChar_digitChar hn, hacc⟩
    · exact ih _ _ (List.forall_mem_cons.2 ⟨isPlainChar_digitChar (Nat.mod_lt _ (by decide)), hacc⟩)

theorem isPlain_regText (r : Reg) : IsPlain (regText r) :=
  ⟨List.cons_ne_nil _ _, List.forall_mem_cons.2 ⟨⟨rfl, by decide⟩,
    List.forall_mem_singleton.2 (isPlainChar_digitChar (by omega))⟩⟩

theorem isPlain_immText (v : Word) : IsPlain (immText v) := by
  have hdigits (n : Nat) := isPlainChar_of_mem_decimalDigits 5 n [] (by simp)
  unfold immText
  split
  · exact ⟨List.cons_ne_nil _ _, List.forall_mem_cons.2
      ⟨⟨rfl, by decide⟩, List.forall_mem_cons.2 ⟨⟨rfl, by decide⟩, hdigits _⟩⟩⟩
  · exact ⟨List.cons_ne_nil _ _, List.forall_mem_cons.2 ⟨⟨rfl, by decide⟩, hdigits _⟩⟩

theorem isPlain_mnemonic_text (mn : Mnemonic) : IsPlain mn.text := by
  cases mn <;> simp [IsPlain, IsPlainChar, Mnemonic.text, isBlank]

theorem isPlain_operandTexts (d : Decoded) : d.operandTexts ≠ [] ∧ ∀ t ∈ d.operandTexts, IsPlain t := by
  unfold Decoded.operandTexts
  split <;> simp [isPlain_regText, isPlain_immText]

/-! ### Blanks around a text -/

/-- A text that neither begins nor ends with a blank. -/
structure IsTrimmed (t : List Char) : Prop where
  ne    : t ≠ []
  left  : t.dropWhile isBlank = t
  right : t.reverse.dropWhile isBlank = t.reverse

theorem IsTrimmed.trimBlanks_eq {t : List Char} (h : IsTrimmed t) : trimBlanks t = t := by
  rw [trimBlanks, h.left, h.right, List.reverse_reverse]

/-- A blank before a text is dropped. -/
@[simp] theorem trimBlanks_space (t : List Char) : trimBlanks (' ' :: t) = trimBlanks t := rfl

theorem dropWhile_append_of_eq {p : Char → Bool} {a b : List Char} (hne : a ≠ []) (h : a.dropWhile p = a) :
    (a ++ b).dropWhile p = a ++ b := by
  simp [List.dropWhile_append, h, hne]

/-- Only the two ends of a text matter. -/
theorem IsTrimmed.append {a b : List Char} (ha : IsTrimmed a) (c : List Char) (hb : IsTrimmed b) :
    IsTrimmed (a ++ c ++ b) where
  ne := by simp [ha.ne]
  left := by
    rw [List.append_assoc]
    exact dropWhile_append_of_eq ha.ne ha.left
  right := by
    rw [List.reverse_append]
    exact dropWhile_append_of_eq (by simp [hb.ne]) hb.right

theorem dropWhile_isBlank_eq {t : List Char} (h : ∀ c ∈ t, IsPlainChar c) : t.dropWhile isBlank = t := by
  cases t with
  | nil => rfl
  | cons c t => simp [(h c (by simp)).1]

theorem IsPlain.isTrimmed {t : List Char} (h : IsPlain t) : IsTrimmed t :=
  ⟨h.1, dropWhile_isBlank_eq h.2, dropWhile_isBlank_eq fun c hc => h.2 c (List.mem_reverse.1 hc)⟩

/-! ### Joined operands are split again -/

/-- Joined operands are a blank and then a text with no blanks around it. -/
theorem joinOperands_eq (ops : List (List Char)) (hne : ops ≠ []) (h : ∀ t ∈ ops, IsPlain t) :
    ∃ body, joinOperands ops = ' ' :: body ∧ IsTrimmed body := by
  induction ops with
  | nil => exact absurd rfl hne
  | cons a as ih =>
    obtain ⟨ha, has⟩ := List.forall_mem_cons.1 h
    cases as with
    | nil => exact ⟨a, rfl, ha.isTrimmed⟩
    | cons b bs =>
      obtain ⟨body, hbody, htrim⟩ := ih (List.cons_ne_nil b bs) has
      refine ⟨a ++ [',', ' '] ++ body, ?_, ha.isTrimmed.append _ htrim⟩
      simp [joinOperands, hbody]

theorem IsPlain.comma_notMem {t : List Char} (h : IsPlain t) : ',' ∉ ' ' :: t := by
  intro hc
  obtain hc | hc := List.mem_cons.1 hc
  · exact absurd hc (by decide)
  · exact (h.2 _ hc).2 rfl

/-- The operands come back from the parts between the commas (R72). -/
theorem splitCommas_joinOperands (ops : List (List Char)) (hne : ops ≠ []) (h : ∀ t ∈ ops, IsPlain t) :
    (splitCommas (joinOperands ops)).map trimBlanks = ops := by
  induction ops with
  | nil => exact absurd rfl hne
  | cons a as ih =>
    obtain ⟨ha, has⟩ := List.forall_mem_cons.1 h
    have htrim := ha.isTrimmed.trimBlanks_eq
    cases as with
    | nil => simp [joinOperands, splitCommas_of_not_mem _ ha.comma_notMem, htrim]
    | cons b bs =>
      rw [joinOperands, splitCommas_append _ _ ha.comma_notMem, List.map_cons, ih (List.cons_ne_nil b bs) has,
        trimBlanks_space, htrim]
      exact List.cons_ne_nil b bs

/-- A blank before the first part changes no part once the blanks around each are dropped. -/
theorem splitCommas_space (t : List Char) :
    (splitCommas (' ' :: t)).map trimBlanks = (splitCommas t).map trimBlanks := by
  rw [splitCommas]
  cases hs : splitCommas t with
  | nil => exact absurd hs (splitCommas_ne_nil t)
  | cons w ws => rfl

/-! ### A written instruction reads back (R72) -/

/-- The reader finds the mnemonic and the operands the writer put there. -/
theorem parseInstr_append (mn : Mnemonic) (ops : List (List Char)) (hne : ops ≠ []) (h : ∀ t ∈ ops, IsPlain t) :
    parseInstr (mn.text ++ joinOperands ops) = parseOperands mn ops := by
  obtain ⟨body, hbody, htrim⟩ := joinOperands_eq ops hne h
  have hmn := isPlain_mnemonic_text mn
  have hwhole : trimBlanks (mn.text ++ ' ' :: body) = mn.text ++ ' ' :: body := by
    simpa using (hmn.isTrimmed.append [' '] htrim).trimBlanks_eq
  have hletters : ∀ c ∈ mn.text, (!isBlank c) = true := fun c hc => by rw [(hmn.2 c hc).1]; rfl
  have hname : (mn.text ++ ' ' :: body).takeWhile (fun c => !isBlank c) = mn.text := by
    rw [List.takeWhile_append_of_pos hletters]
    simp [isBlank]
  have hrest : (mn.text ++ ' ' :: body).dropWhile (fun c => !isBlank c) = ' ' :: body := by
    rw [List.dropWhile_append_of_pos hletters]
    simp [isBlank]
  have hops : (splitCommas body).map trimBlanks = ops := by
    rw [← splitCommas_space, ← hbody, splitCommas_joinOperands ops hne h]
  simp only [parseInstr, hbody, hwhole, hname, hrest, trimBlanks_space, htrim.trimBlanks_eq, parseMnemonic_text, hops,
    List.isEmpty_iff, htrim.ne, if_false]

/-- The operands of a well-formed instruction read back in every format. -/
theorem parseOperands_operandTexts (i : Instr) (h : i.wf = true) :
    parseOperands i.mnemonic i.toDecoded.operandTexts = some i := by
  unfold Instr.wf at h
  refine Eq.trans ?_ (congrArg some i.toInstr_toDecoded)
  obtain ⟨hf, rd, rs1, rs2, hd⟩ | ⟨hf, rd, rs1, imm, hd⟩ | ⟨hf, rd, imm, hd⟩ | ⟨hf, rs1, rs2, imm, hd⟩ :=
    i.toDecoded_cases <;>
    rw [hd] at h ⊢ <;>
    simp only [Decoded.operandTexts, parseOperands, hf, parseReg_regText, Option.bind_some, Option.map_some]
  · rw [parseImm_immText _ _ (by obtain hk | hk := Mnemonic.immKind_of_formatI hf <;> rw [hk] <;> decide) h]; rfl
  · rw [parseImm_immText _ _ (by rw [Mnemonic.immKind_of_formatJ hf]; decide) h]; rfl
  · rw [parseImm_immText _ _ (by rw [Mnemonic.immKind_of_formatB hf]; decide) h]; rfl

theorem parseInstr_text (i : Instr) (h : i.wf = true) : parseInstr i.text = some i := by
  obtain ⟨hne, hplain⟩ := isPlain_operandTexts i.toDecoded
  rw [Instr.text, parseInstr_append _ _ hne hplain, parseOperands_operandTexts i h]

/-- Settles O8: every path of the reader goes through the range check, and each part the writer writes is read back. -/
theorem assemblyTextRoundTrip : Obligations.AssemblyTextRoundTrip := by
  refine ⟨fun t i => wf_of_parseInstr, fun m i h => ⟨parseInstr_text i h, ?_⟩⟩
  rw [assembleText, parseInstr_text i h, Option.bind_some, assemble, if_pos h]

end Sys2Proof

/-! PROOFS for 10_state.md, 60_exceptions.md and 70_reset_and_hazards.md: every instruction completes, what a step is made of, and what
each part of it keeps. -/

namespace Sys2Proof.Machine

/-! ### Instructions (R25, R36, R115) -/

/-- A property that a register write, a jump and a store byte keep holds after every instruction. -/
theorem exec_induct (P : State → Prop) (hreg : ∀ i v s, P s → P (s.writeReg i v)) (hpc : ∀ t s, P s → P (s.setPc t))
    (hbyte : ∀ a d s, P s → P (s.byteWrite a d)) (i : Instr) (s : State) (hs : P s) :
    ∃ t, exec i s = .next t ∧ P t := by
  obtain ⟨rd, v, t, -, -, -, he⟩ | ⟨t, -, -, -, he⟩ | ⟨rd, rs1, imm, -, he⟩ | ⟨rd, rs1, imm, -, he⟩ := exec_cases i s
  · exact ⟨_, he, hpc _ _ (hreg _ _ _ hs)⟩
  · exact ⟨_, he, hpc _ _ hs⟩
  · exact ⟨_, he, hpc _ _ (hbyte _ _ _ hs)⟩
  · exact ⟨_, he, hpc _ _ (hbyte _ _ _ (hbyte _ _ _ hs))⟩

/-- Every instruction completes in every state, and changes neither the open parameters nor the schedule nor the record handed over last
(R115). -/
theorem exec_around (i : Instr) (s : State) : ∃ t, exec i s = .next t ∧ SameSurroundings s t :=
  exec_induct (SameSurroundings s)
    (fun i v u h => ⟨by simp [h.retire], by simp [h.platform], by simp [h.host]⟩)
    (fun _ _ h => ⟨h.retire, h.platform, h.host⟩) (fun _ _ _ h => ⟨h.retire, h.platform, h.host⟩) i s ⟨rfl, rfl, rfl⟩

theorem exec_next (i : Instr) (s : State) : ∃ t, exec i s = .next t :=
  (exec_around i s).imp fun _ h => h.1

theorem sameSurroundings_of_exec {i : Instr} {s t : State} (h : exec i s = .next t) : SameSurroundings s t := by
  obtain ⟨u, hu, ha⟩ := exec_around i s
  obtain rfl : u = t := Host.Outcome.next.inj (hu.symm.trans h)
  exact ha

/-! ### The boundary and the step (R15, R129, R130) -/

/-- All that a boundary can do: nothing, or the actions waiting at it. -/
theorem boundary_cases {s t : State} (h : boundary s = .next t) :
    (s.host = [] ∧ t = s) ∨ ∃ acts rest, s.host = acts :: rest ∧ hostActs acts { s with host := rest } = .next t := by
  cases hs : s.host with
  | nil =>
    rw [boundary_of_nil s hs] at h
    exact .inl ⟨rfl, (Host.Outcome.next.inj h).symm⟩
  | cons acts rest =>
    rw [boundary_of_cons s acts rest hs] at h
    exact .inr ⟨acts, rest, rfl, h⟩

/-- A property that each action of the host keeps, and that does not speak of the schedule, holds after the boundary. -/
theorem boundary_induct (P : State → Prop) (hact : ∀ a s t, P s → hostAct a s = .next t → P t)
    (hhost : ∀ s rest, P s → P { s with host := rest }) {s t : State} (hs : P s) (h : boundary s = .next t) : P t := by
  obtain ⟨-, rfl⟩ | ⟨acts, rest, -, hacts⟩ := boundary_cases h
  · exact hs
  · exact hostActs_induct P hact acts _ t (hhost s rest hs) hacts

/-- All that a step can do: the decoded instruction runs to its end, and the boundary follows (R15). -/
theorem step_cases {s t : State} (h : step s = .next t) :
    ∃ u, exec (decode s.platform.opcodeMap s.fetchWord) s.beginStep = .next u ∧ boundary (s.endStep u) = .next t := by
  obtain ⟨u, hu⟩ := exec_next (decode s.platform.opcodeMap s.fetchWord) s.beginStep
  rw [step_eq_finishStep, hu] at h
  exact ⟨u, hu, h⟩

/-- With no host action waiting, a step is the decoded instruction and the end of the step. -/
theorem step_cases_of_no_host {s t : State} (hhost : s.host = []) (h : step s = .next t) :
    ∃ u, exec (decode s.platform.opcodeMap s.fetchWord) s.beginStep = .next u ∧ t = s.endStep u := by
  obtain ⟨u, hu, -⟩ := step_cases h
  have hend := step_eq_endStep s u ((sameSurroundings_of_exec hu).host.trans hhost) hu
  exact ⟨u, hu, Host.Outcome.next.inj (h.symm.trans hend)⟩

/-! ### The invariant (R24, R33, R136) -/

theorem State.Inv.writeReg {s : State} (h : s.Inv) (i : Reg) (v : Word) : (s.writeReg i v).Inv where
  zero := by
    unfold State.writeReg
    split
    · exact h.zero
    · next hi =>
      have hplace : i.val ≠ 0 := fun e => hi (Fin.ext e)
      simpa [hplace] using h.zero
  mem := by simpa using h.mem
  display := by simpa using h.display
  platform := by simpa using h.platform

theorem State.Inv.setPc {s : State} (h : s.Inv) (t : Word) : (s.setPc t).Inv := ⟨h.zero, h.mem, h.display, h.platform⟩

theorem State.Inv.byteWrite {s : State} (h : s.Inv) (a : Word) (d : Byte) : (s.byteWrite a d).Inv :=
  ⟨h.zero, Memory.wf_put s.mem a d h.mem, s.platform.dims_offer _ _ a d _ h.display, h.platform⟩

theorem State.Inv.pokeByte {s : State} (h : s.Inv) (a : Word) (d : Byte) : (s.pokeByte a d).Inv :=
  ⟨h.zero, Memory.wf_put s.mem a d h.mem, h.display, h.platform⟩

theorem State.Inv.beginStep {s : State} (h : s.Inv) : s.beginStep.Inv := ⟨h.zero, h.mem, h.display, h.platform⟩

theorem State.Inv.endStep {u : State} (h : u.Inv) (s : State) : (s.endStep u).Inv :=
  ⟨s.endStep_regs_zero u, h.mem, h.display, h.platform⟩

/-- Legal parameters put every part the image load sets into the invariant (R136). -/
theorem inv_of_loadImage {s : State} (h : s.platform.wf = true) {image : List Byte} (hlen : image.length ≤ Config.memSize) :
    State.Inv { s with
      regs := s.platform.initialRegs, pc := 0#16, mem := Memory.ofBytes 0 image, display := s.platform.displayInit } where
  zero := rfl
  mem := Memory.wf_ofBytes image hlen
  display := by
    unfold Platform.wf at h
    exact (Bool.and_eq_true_iff.1 h).2
  platform := h

theorem State.Inv.exec {s t : State} {i : Instr} (h : s.Inv) (he : Machine.exec i s = .next t) : t.Inv := by
  obtain ⟨u, hu, hinv⟩ := exec_induct State.Inv (fun i v _ hs => hs.writeReg i v) (fun t _ hs => hs.setPc t)
    (fun a d _ hs => hs.byteWrite a d) i s h
  exact Host.Outcome.next.inj (hu.symm.trans he) ▸ hinv

theorem State.Inv.hostAct {s t : State} {a : HostAction} (h : s.Inv) (ha : Machine.hostAct a s = .next t) : t.Inv := by
  obtain ⟨v, -, rfl⟩ | ⟨image, -, hlen, rfl⟩ | ⟨-, rfl⟩ := hostAct_cases a s t ha
  · exact h.pokeByte _ v
  · exact inv_of_loadImage h.platform hlen
  · exact h

theorem State.Inv.boundary {s t : State} (h : s.Inv) (hb : Machine.boundary s = .next t) : t.Inv :=
  boundary_induct State.Inv (fun _ _ _ hs => hs.hostAct) (fun _ _ hs => ⟨hs.zero, hs.mem, hs.display, hs.platform⟩) h hb

/-- Settles O13: the invariant goes through the start of the step, the instruction, the end of the step and the boundary. -/
theorem everyStepKeepsTheInvariant : Obligations.EveryStepKeepsTheInvariant := by
  intro s t hinv hstep
  obtain ⟨u, hu, hb⟩ := step_cases hstep
  exact ((hinv.beginStep.exec hu).endStep s).boundary hb

/-- Settles O12: each clause on the one state. -/
theorem resetMeetsTheInvariant : Obligations.ResetMeetsTheInvariant :=
  ⟨by decide, by decide, by decide, by decide⟩

/-- An image load goes through exactly if the image fits into memory, and then sets the whole state (R136, R137). -/
theorem loadImage_cases {s t : State} {image : List Byte} (h : loadImage image s = .next t) :
    image.length ≤ Config.memSize ∧ t = { s with
      regs := s.platform.initialRegs, pc := 0#16, mem := Memory.ofBytes 0 image, display := s.platform.displayInit } := by
  obtain ⟨_, hv, -⟩ | ⟨image', himage, hlen, ht⟩ | ⟨hsnap, -⟩ := hostAct_cases (.loadImage image) s t h
  · cases hv
  · obtain rfl := HostAction.loadImage.inj himage
    exact ⟨hlen, ht⟩
  · cases hsnap

/-- Settles O14: the image load sets every part of the state that the invariant speaks of. -/
theorem imageLoadEstablishesTheInvariant : Obligations.ImageLoadEstablishesTheInvariant := by
  intro s t image hwf hload
  obtain ⟨hlen, rfl⟩ := loadImage_cases hload
  exact inv_of_loadImage hwf hlen

/-- Settles O15: the end of the step stores 0 in r0's place, and no action of the host puts another value there. -/
theorem registerZeroIsZeroAfterEveryStep : Obligations.RegisterZeroIsZeroAfterEveryStep := by
  intro s t hstep
  obtain ⟨u, -, hb⟩ := step_cases hstep
  refine ⟨boundary_induct (fun s => s.regs[0] = 0#16) ?_ (fun _ _ h => h) (s.endStep_regs_zero u) hb, t.readReg_zero⟩
  intro a s t hs hact
  obtain ⟨v, -, rfl⟩ | ⟨image, -, -, rfl⟩ | ⟨-, rfl⟩ := hostAct_cases a s t hact
  · exact hs
  · rfl
  · exact hs

end Sys2Proof.Machine

/-! PROOFS for 20_memory.md section 2, 60_exceptions.md sections 1, 4 and 5 and 70_reset_and_hazards.md section 1: what never flows back
from the display and the schedule, and what the host's actions do. -/

namespace Sys2Proof.Machine

/-! ### The display and the schedule are read by no instruction (R39, R130) -/

/-- The state with other display contents and another schedule. -/
def State.withSides (s : State) (g : DisplayGrid) (hs : List (List HostAction)) : State := { s with display := g, host := hs }

/-- Where a run of `o` from `s` leads to `t`, the same run from other sides leads to a state that differs from `t` in its sides only; it
ends with the display of `t` if it began with that of `s`. -/
def SidesFollow (o : State → Host.Outcome State Fault Refusal) (s t : State) : Prop :=
  ∀ g hs, ∃ g', o (s.withSides g hs) = .next (t.withSides g' hs) ∧ (g = s.display → g' = t.display)

section
variable {s t : State} {target : Word}

theorem State.writeReg_withSides (i : Reg) (v : Word) (g : DisplayGrid) (hs : List (List HostAction)) :
    (s.withSides g hs).writeReg i v = (s.writeReg i v).withSides g hs := by
  unfold State.writeReg
  split <;> rfl

theorem writeAndGo_sidesFollow {rd : Reg} {v : Word} (h : writeAndGo rd v target s = .next t) :
    SidesFollow (writeAndGo rd v target) s t := by
  obtain rfl := Host.Outcome.next.inj h
  refine fun g hs => ⟨g, ?_, fun hg => by simpa using hg⟩
  rw [writeAndGo, State.writeReg_withSides]
  rfl

theorem goTo_sidesFollow (h : goTo target s = .next t) : SidesFollow (goTo target) s t := by
  obtain rfl := Host.Outcome.next.inj h
  exact fun g hs => ⟨g, rfl, id⟩

/-- Each byte of a store is offered to whatever the display holds. -/
theorem State.byteWrite_withSides (a : Word) (d : Byte) (g : DisplayGrid) (hs : List (List HostAction)) :
    (s.withSides g hs).byteWrite a d = (s.byteWrite a d).withSides (s.platform.offer a d g) hs := rfl

theorem goTo_byteWrite_sidesFollow {a : Word} {d : Byte} (h : goTo target (s.byteWrite a d) = .next t) :
    SidesFollow (fun s => goTo target (s.byteWrite a d)) s t := by
  intro g hs
  obtain ⟨g', he, hg⟩ := goTo_sidesFollow h (s.platform.offer a d g) hs
  exact ⟨g', he, fun h => hg (h ▸ rfl)⟩

theorem goTo_wordWrite_sidesFollow {a v : Word} (h : goTo target (s.wordWrite a v) = .next t) :
    SidesFollow (fun s => goTo target (s.wordWrite a v)) s t := by
  intro g hs
  obtain ⟨g', he, hg⟩ := goTo_byteWrite_sidesFollow h (s.platform.offer a (v.setWidth 8) g) hs
  exact ⟨g', he, fun h => hg (h ▸ rfl)⟩

/-- No instruction reads the display or the schedule: each takes its operands from the registers, pc and memory. -/
theorem exec_sidesFollow (i : Instr) (h : exec i s = .next t) : SidesFollow (exec i) s t := by
  intro g hs
  cases i with
  | sb rd rs1 imm => exact goTo_byteWrite_sidesFollow h g hs
  | sw rd rs1 imm => exact goTo_wordWrite_sidesFollow h g hs
  | beq | bne | blt | bge | bltu | bgeu => exact goTo_sidesFollow h g hs
  | _ => exact writeAndGo_sidesFollow h g hs

/-- The same of the instruction a step runs, up to the end of the step. -/
theorem endStep_sidesFollow (h : exec (decode s.platform.opcodeMap s.fetchWord) s.beginStep = .next t) (g : DisplayGrid)
    (hs : List (List HostAction)) :
    ∃ g', step (s.withSides g hs) = boundary ((s.endStep t).withSides g' hs) ∧ (g = s.display → g' = t.display) := by
  obtain ⟨g', he, hg⟩ := exec_sidesFollow _ h g hs
  refine ⟨g', ?_, hg⟩
  have hrun : exec (decode s.platform.opcodeMap s.fetchWord) (s.withSides g hs).beginStep = .next (t.withSides g' hs) := he
  rw [step_eq_finishStep]
  exact congrArg (finishStep (s.withSides g hs)) hrun

end

/-! ### The display alone: D11 -/

/-- Two states that differ in the display only. -/
def DifferInDisplay (s t : State) : Prop := ∃ g, t = { s with display := g }

theorem hostAct_differInDisplay {a : HostAction} {s t s' : State} (hd : DifferInDisplay s s') (h : hostAct a s = .next t) :
    ∃ t', hostAct a s' = .next t' ∧ DifferInDisplay t t' := by
  obtain ⟨g, rfl⟩ := hd
  obtain ⟨v, rfl, rfl⟩ | ⟨image, rfl, hlen, rfl⟩ | ⟨rfl, rfl⟩ := hostAct_cases a s t h
  · exact ⟨_, rfl, g, rfl⟩
  · exact ⟨_, if_pos hlen, s.platform.displayInit, rfl⟩
  · exact ⟨_, rfl, g, rfl⟩

theorem hostActs_differInDisplay (acts : List HostAction) {s t s' : State} (hd : DifferInDisplay s s')
    (h : hostActs acts s = .next t) : ∃ t', hostActs acts s' = .next t' ∧ DifferInDisplay t t' := by
  induction acts generalizing s s' with
  | nil =>
    obtain rfl := Host.Outcome.next.inj h
    exact ⟨s', rfl, hd⟩
  | cons a as ih =>
    cases ha : hostAct a s with
    | next u =>
      obtain ⟨u', hu', hdu⟩ := hostAct_differInDisplay hd ha
      simp only [hostActs, ha, hu'] at h ⊢
      exact ih hdu h
    | fault r => simp [hostActs, ha] at h
    | refused r => simp [hostActs, ha] at h

theorem boundary_differInDisplay {s t s' : State} (hd : DifferInDisplay s s') (h : boundary s = .next t) :
    ∃ t', boundary s' = .next t' ∧ DifferInDisplay t t' := by
  obtain ⟨g, rfl⟩ := hd
  obtain ⟨hs, rfl⟩ | ⟨acts, rest, hs, hacts⟩ := boundary_cases h
  · exact ⟨_, boundary_of_nil _ hs, g, rfl⟩
  · obtain ⟨t', ht', hd⟩ := hostActs_differInDisplay acts ⟨g, rfl⟩ hacts
    exact ⟨t', (boundary_of_cons { s with display := g } acts rest hs).trans ht', hd⟩

/-- Settles O25: neither the instruction, nor the record made at the end of the step, nor an action of the host reads the display. -/
theorem displayNeverFlowsBack : Obligations.DisplayNeverFlowsBack := by
  intro s t g hstep
  obtain ⟨u, hu, hb⟩ := step_cases hstep
  obtain ⟨g', he, -⟩ := endStep_sidesFollow hu g s.host
  have hhost : u.host = s.host := (sameSurroundings_of_exec hu).host
  have hd : DifferInDisplay (s.endStep u) ((s.endStep u).withSides g' s.host) := ⟨g', by rw [← hhost]; rfl⟩
  obtain ⟨t', ht', g'', rfl⟩ := boundary_differInDisplay hd hb
  exact ⟨_, he.trans ht', rfl⟩

/-! ### The schedule alone: the host acts after the whole step (R129, R130) -/

/-- Settles O19: the schedule is read at the boundary only, where the first list of actions is run. -/
theorem hostActsAfterTheWholeStep : Obligations.HostActsAfterTheWholeStep := by
  intro s t v rest hstep
  obtain ⟨u, hu, rfl⟩ := step_cases_of_no_host rfl hstep
  obtain ⟨g', he, hg⟩ := endStep_sidesFollow hu s.display ([.inputWrite v] :: rest)
  obtain rfl := hg rfl
  exact he

/-! ### No trap, no fault, no stop (R68, R115) -/

/-- No action of the host stops with a fault: only an overlong image stops it, with a refusal (R137). -/
theorem hostActs_ne_fault (acts : List HostAction) (s : State) (r : Fault) : hostActs acts s ≠ .fault r := by
  induction acts generalizing s with
  | nil => exact nofun
  | cons a as ih =>
    unfold hostActs
    split
    · exact ih _
    · next r' ha =>
      cases a with
      | inputWrite v => cases ha
      | loadImage image => simp only [hostAct, loadImage] at ha; split at ha <;> cases ha
      | snapshot => cases ha
    · exact nofun

theorem boundary_ne_fault (s : State) (r : Fault) : boundary s ≠ .fault r := by
  unfold boundary
  split
  · exact nofun
  · exact hostActs_ne_fault _ _ r

/-- A step of a state whose decoded instruction ends in `u` is the boundary after it. -/
theorem step_eq_boundary (s : State) : ∃ u : State, u.host = s.host ∧ step s = boundary (s.endStep u) := by
  obtain ⟨u, hu, ha⟩ := exec_around (decode s.platform.opcodeMap s.fetchWord) s.beginStep
  exact ⟨u, ha.host, by rw [step_eq_finishStep, hu, finishStep]⟩

/-- Settles O11: every instruction completes, so that only the boundary could stop a step. -/
theorem noInstructionTrapsFaultsOrStops : Obligations.NoInstructionTrapsFaultsOrStops := by
  refine ⟨fun m lo hi => ⟨decode m (hi ++ lo), rfl⟩, exec_next, fun s hfit => ?_, fun s r => ?_⟩ <;>
    obtain ⟨u, hu, hstep⟩ := step_eq_boundary s <;> rw [hstep]
  · cases hs : s.host with
    | nil => exact ⟨_, boundary_of_nil _ (hu.trans hs)⟩
    | cons acts rest =>
      obtain ⟨t, ht⟩ := hostActs_next acts { s.endStep u with host := rest } (hfit acts (by rw [hs]; rfl))
      exact ⟨t, (boundary_of_cons (s.endStep u) acts rest (hu.trans hs)).trans ht⟩
  · exact boundary_ne_fault _ r

/-! ### Image load, reset and the input write (R35, R54, R129, R136, R137) -/

/-- Settles O17: the load sets the four parts of the state, and memory reads as the image and then 0x00. -/
theorem imageLoadSetsTheWholeState : Obligations.ImageLoadSetsTheWholeState := by
  refine fun s image => ⟨fun hlen => ⟨_, if_pos hlen, rfl, rfl, fun k => ?_, fun a => ?_, rfl, rfl, ⟨rfl, rfl, rfl⟩⟩,
    fun hlen => if_neg (Nat.not_le.2 hlen)⟩
  · revert k
    simp [Fin.forall_fin_succ, State.readReg, Platform.initialRegs]
  · simp [State.readByte, Memory.get_ofBytes]

/-- Settles O18: the poked byte is the only part of the state that the input write touches. -/
theorem inputWriteChangesOneByte : Obligations.InputWriteChangesOneByte :=
  fun s v => ⟨fun a => s.readByte_pokeByte _ a v, fun _ => rfl, rfl, rfl, rfl, ⟨rfl, rfl, rfl⟩⟩

/-- Settles O16: the fields of the one state, an empty memory that reads 0x00 everywhere, and the load of no byte. -/
theorem resetIsTheEmptyImageLoad : Obligations.ResetIsTheEmptyImageLoad :=
  ⟨rfl, rfl, fun _ => rfl, by decide, rfl, rfl⟩

/-! ### Fetch (R41, R43) and the step as a whole (R15, R24, R124) -/

/-- The value of a word of two bytes (R37). -/
theorem readWord_toNat (s : State) (a : Word) :
    (s.readWord a).toNat = (s.readByte (a + 1#16)).toNat * 256 + (s.readByte a).toNat :=
  toNat_append_eq _ _

/-- The next address, mod 65536 (R12). -/
theorem ofNat_toNat_add_one (a : Word) : BitVec.ofNat 16 (a.toNat + 1) = a + 1#16 := by
  simp [BitVec.ofNat_add]

/-- Settles O10: the fetched word is the two bytes at pc, and the second address wraps. -/
theorem fetchIsLittleEndianAtEveryPc : Obligations.FetchIsLittleEndianAtEveryPc := by
  intro s
  have hwrap : BitVec.ofNat 16 ((s.pc.toNat + 1) % 65536) = s.pc + 1#16 := by
    rw [← ofNat_toNat_add_one]
    exact BitVec.eq_of_toNat_eq (by simp)
  rw [hwrap, State.fetchWord, readWord_toNat]
  omega

/-- Settles O9: the step by its definition, and its end where the instruction leaves no host action waiting. -/
theorem stepRunsTheDecodedInstruction : Obligations.StepRunsTheDecodedInstruction := by
  rintro s i rfl
  exact ⟨step_eq_finishStep s, fun hhost t ht => step_eq_endStep s t ((sameSurroundings_of_exec ht).host.trans hhost) ht⟩

end Sys2Proof.Machine

/-! PROOFS for 10_state.md sections 1 and 2, 40_integer.md and 42_control.md: what no instruction changes, where each goes, and the
results of the shifts. -/

namespace Sys2Proof.Machine

/-! ### What an instruction leaves unchanged (R25, R36) -/

/-- Settles O20: one next state, in which each register that is not the destination reads as before. -/
theorem onlyTheDestinationRegisterChanges : Obligations.OnlyTheDestinationRegisterChanges := by
  intro i s
  obtain ⟨t, ht⟩ := exec_next i s
  refine ⟨t, ht, fun r hr => ?_⟩
  obtain ⟨u, hu, hreg⟩ := exec_readReg_of_dest_ne i s r hr
  obtain rfl : u = t := Host.Outcome.next.inj (hu.symm.trans ht)
  exact hreg

/-- An instruction that is no store leaves memory, the display and the memory-write list as they are (R36). -/
theorem exec_noStore (i : Instr) (s : State) (hb : i.mnemonic ≠ .sb) (hw : i.mnemonic ≠ .sw) :
    ∃ t, exec i s = .next t ∧ NoStore s t ∧ t.mem = s.mem := by
  obtain ⟨rd, v, t, -, -, -, he⟩ | ⟨t, -, -, -, he⟩ | ⟨_, _, _, rfl, -⟩ | ⟨_, _, _, rfl, -⟩ := exec_cases i s
  · exact ⟨_, he, ⟨by simp, by simp, by simp⟩, by simp⟩
  · exact ⟨_, he, ⟨fun _ => rfl, rfl, rfl⟩, rfl⟩
  · exact absurd rfl hb
  · exact absurd rfl hw

/-- Settles O22: the frame of every instruction, and that of the instructions that are no stores. -/
theorem onlyStoresTouchMemoryAndDisplay : Obligations.OnlyStoresTouchMemoryAndDisplay := by
  intro i s
  obtain ⟨t, ht, ha⟩ := exec_around i s
  refine ⟨t, ht, ha, fun hb hw => ?_⟩
  obtain ⟨u, hu, hframe⟩ := exec_noStore i s hb hw
  obtain rfl : u = t := Host.Outcome.next.inj (hu.symm.trans ht)
  exact hframe

/-! ### Where an instruction goes (R28, R104 to R106) -/

/-- Settles O23: each ending of an instruction that is no transfer goes to `nextPc`. -/
theorem nonTransferAdvancesByTwo : Obligations.NonTransferAdvancesByTwo := by
  intro i s hi
  rw [← s.nextPc_eq]
  obtain ⟨rd, v, t, -, -, ht, he⟩ | ⟨t, -, -, htrans, -⟩ | ⟨rd, rs1, imm, -, he⟩ | ⟨rd, rs1, imm, -, he⟩ := exec_cases i s
  · exact ⟨_, he, ht hi⟩
  · exact absurd htrans (by simp [hi])
  · exact ⟨_, he, rfl⟩
  · exact ⟨_, he, rfl⟩

/-- The next addresses there are: the following one, one relative to the fetch pc, and one with bit 0 cleared. -/
theorem exec_pc_cases {i : Instr} {s t : State} (h : exec i s = .next t) :
    t.pc = s.nextPc ∨ (i.isTransfer = true ∧ t.pc = relativeTarget s i.toDecoded.imm) ∨
      ∃ rs1 imm, t.pc = registerTarget s rs1 imm := by
  have branch {taken : Bool} {imm : Word} (hb : branchIf taken imm s = .next t) :
      t.pc = s.nextPc ∨ t.pc = relativeTarget s imm := by
    obtain rfl := Host.Outcome.next.inj hb
    cases taken
    · exact .inl rfl
    · exact .inr rfl
  cases i with
  | jmp rd imm =>
    obtain rfl := Host.Outcome.next.inj h
    exact .inr (.inl ⟨rfl, rfl⟩)
  | jmpr rd rs1 imm =>
    obtain rfl := Host.Outcome.next.inj h
    exact .inr (.inr ⟨rs1, imm, rfl⟩)
  | beq | bne | blt | bge | bltu | bgeu => exact (branch h).imp_right fun hpc => .inl ⟨rfl, hpc⟩
  | _ =>
    obtain rfl := Host.Outcome.next.inj h
    exact .inl rfl

/-- Bit 0 of Jmpr's target is cleared (R106). -/
theorem registerTarget_toNat (s : State) (rs1 : Reg) (imm : Word) :
    (registerTarget s rs1 imm).toNat = (s.readReg rs1 + imm).toNat / 2 * 2 :=
  toNat_and_highMask _ 1

/-- Settles O24: adding an even offset mod 65536 keeps pc even, and clearing bit 0 makes it even. -/
theorem evenOffsetsKeepPcEven : Obligations.EvenOffsetsKeepPcEven := by
  intro i s t hexec heven hoffset
  obtain hpc | ⟨htrans, hpc⟩ | ⟨rs1, imm, hpc⟩ := exec_pc_cases hexec <;> rw [hpc]
  · simp only [State.nextPc, BitVec.toNat_add, BitVec.toNat_ofNat]
    omega
  · have := hoffset htrans
    simp only [relativeTarget, BitVec.toNat_add]
    omega
  · rw [registerTarget_toNat]
    omega

/-! ### Jumps (R105, R106) -/

theorem decodesFormatJ {mn : Mnemonic} {mk : Reg → Word → Instr} (hf : mn.format = .J)
    (hmk : ∀ rd imm, (Decoded.mk mn .J rd 0 0 imm).toInstr = mk rd imm) : DecodesFormatJ mn mk := by
  intro m w h
  rw [decode_of_formatJ hf m w h, Mnemonic.immKind_of_formatJ hf]
  exact hmk _ _

theorem execJmp_effect (s : State) (rd : Reg) (imm : Word) :
    ∃ t, exec (.jmp rd imm) s = .next t ∧ WritesRegister rd (addressAfter s) (addressFrom s imm) s t := by
  rw [← s.nextPc_eq, ← relativeTarget_eq]
  exact writeAndGo_effect _ _ _ s

theorem execJmpr_effect (s : State) (rd rs1 : Reg) (imm : Word) :
    ∃ t, exec (.jmpr rd rs1 imm) s = .next t ∧ WritesRegister rd (addressAfter s) (registerTarget s rs1 imm) s t := by
  rw [← s.nextPc_eq]
  exact writeAndGo_effect _ _ _ s

/-- Settles O42: the link and the target as values. -/
theorem jmpEffect : Obligations.JmpEffect :=
  ⟨decodesFormatJ rfl fun _ _ => rfl, execJmp_effect⟩

/-- Settles O43: the target is the effective address of Jmpr's operands with bit 0 cleared. -/
theorem jmprEffect : Obligations.JmprEffect := by
  refine ⟨decodesFormatISigned rfl rfl fun _ _ _ => rfl, fun s rd rs1 imm => ?_⟩
  obtain ⟨t, ht, hw⟩ := execJmpr_effect s rd rs1 imm
  refine ⟨t, _, ht, hw, ?_⟩
  rw [registerTarget_toNat, ← effectiveAddress_toNat]
  rfl

/-- A register other than r0 holds what was written to it. -/
theorem WritesRegister.readReg_self {rd : Reg} {v target : Word} {s t : State} (h : WritesRegister rd v target s t)
    (hrd : rd ≠ 0) : t.readReg rd = v := by
  rw [h.regs, if_pos ⟨rfl, hrd⟩]

/-- Both calls leave the address of the next instruction in the link register. -/
theorem exec_call_link (s : State) (rL rs : Reg) (off : Word) (hL : rL ≠ 0) {i : Instr}
    (hi : i ∈ [Instr.jmp rL off, .jmpr rL rs off]) : ∃ t, exec i s = .next t ∧ t.readReg rL = addressAfter s := by
  simp only [List.mem_cons, List.not_mem_nil, or_false] at hi
  obtain rfl | rfl := hi
  · obtain ⟨t, ht, hw⟩ := execJmp_effect s rL off
    exact ⟨t, ht, hw.readReg_self hL⟩
  · obtain ⟨t, ht, hw⟩ := execJmpr_effect s rL rs off
    exact ⟨t, ht, hw.readReg_self hL⟩

/-- Settles O47: the return goes to the link with bit 0 cleared, and the link is the call's pc plus 2. -/
theorem returnGoesToTheLink : Obligations.ReturnGoesToTheLink := by
  intro s rL rs off hL i hi
  obtain ⟨t, ht, hlink⟩ := exec_call_link s rL rs off hL hi
  refine ⟨t, ht, fun u hu => ?_⟩
  obtain ⟨v, hv, hw⟩ := execJmpr_effect u 0 rL 0#16
  refine ⟨v, hv, ?_⟩
  rw [hw.pc, registerTarget_toNat, BitVec.add_zero, hu, hlink, addressAfter, BitVec.toNat_ofNat]
  omega

/-! ### Shifts (R77, R83 to R85, R92 to R94) -/

section
variable (a : Word) (n : Nat)

theorem shiftAmount_eq : shiftAmount a = a.toNat % 32 := by
  simp [shiftAmount, BitVec.extractLsb'_toNat]

/-- A left shift is the exact product mod 65536. -/
theorem shiftLeft_eq : shiftLeft a n = BitVec.ofNat 16 (a.toNat * 2 ^ n) := by
  apply BitVec.eq_of_toNat_eq
  rw [shiftLeft, BitVec.toNat_shiftLeft, Nat.shiftLeft_eq, BitVec.toNat_ofNat]

/-- A logical right shift is the floor quotient of the unsigned value. -/
theorem shiftRightLogical_eq : shiftRightLogical a n = BitVec.ofNat 16 (a.toNat / 2 ^ n) := by
  apply BitVec.eq_of_toNat_eq
  rw [shiftRightLogical, BitVec.toNat_ushiftRight, Nat.shiftRight_eq_div_pow, BitVec.toNat_ofNat,
    Nat.mod_eq_of_lt ((Nat.div_le_self _ _).trans_lt a.isLt)]

/-- An arithmetic right shift is the floor quotient of the signed value. -/
theorem shiftRightArith_eq : shiftRightArith a n = BitVec.ofInt 16 (a.toInt / (2 : Int) ^ n) := by
  have hvalue : (a.sshiftRight n).toInt = a.toInt / (2 : Int) ^ n := by
    rw [BitVec.toInt_sshiftRight, Int.shiftRight_eq_div_pow]
    norm_cast
  rw [shiftRightArith, ← hvalue, BitVec.ofInt_toInt]

end

/-- Settles O29: the shifts as arithmetic, by an amount of five bits of x[rs2]. -/
theorem registerShiftResults : Obligations.RegisterShiftResults := by
  refine ⟨decodesFormatR rfl fun _ _ _ _ => rfl, decodesFormatR rfl fun _ _ _ _ => rfl,
    decodesFormatR rfl fun _ _ _ _ => rfl, fun s rd rs1 rs2 => ?_⟩
  simp only [← shiftAmount_eq, ← shiftLeft_eq, ← shiftRightLogical_eq, ← shiftRightArith_eq]
  exact ⟨exec_effect_of_writeAndGo rfl, exec_effect_of_writeAndGo rfl, exec_effect_of_writeAndGo rfl⟩

/-- Settles O30: the same by the zero-extended immediate. -/
theorem immediateShiftResults : Obligations.ImmediateShiftResults := by
  refine ⟨decodesFormatIUnsigned rfl rfl fun _ _ _ => rfl, decodesFormatIUnsigned rfl rfl fun _ _ _ => rfl,
    decodesFormatIUnsigned rfl rfl fun _ _ _ => rfl, fun s rd rs1 imm => ?_⟩
  simp only [← shiftLeft_eq, ← shiftRightLogical_eq, ← shiftRightArith_eq]
  exact ⟨exec_effect_of_writeAndGo rfl, exec_effect_of_writeAndGo rfl, exec_effect_of_writeAndGo rfl⟩

/-- An arithmetic shift by the width or more leaves copies of the sign bit only. -/
theorem sshiftRight_of_le {w : Nat} (a : BitVec w) {n : Nat} (h : w ≤ n) :
    a.sshiftRight n = if a.msb then BitVec.allOnes w else 0#w := by
  apply BitVec.eq_of_getLsbD_eq
  intro j hj
  have hout : ¬ n + j < w := by omega
  rw [BitVec.getLsbD_sshiftRight, if_neg hout]
  cases a.msb <;> simp [hj]

section
variable {a : Word} {n : Nat} (h : 16 ≤ n)
include h

/-- Sixteen places or more shift every bit out to the left. -/
theorem shiftLeft_of_le : shiftLeft a n = 0#16 := BitVec.shiftLeft_eq_zero h

/-- Sixteen places or more shift every bit out to the right. -/
theorem shiftRightLogical_of_le : shiftRightLogical a n = 0#16 := BitVec.ushiftRight_eq_zero h

/-- Sixteen places or more leave copies of bit 15 only. -/
theorem shiftRightArith_of_le : shiftRightArith a n = if 0x8000 ≤ a.toNat then 0xFFFF#16 else 0#16 := by
  rw [shiftRightArith, sshiftRight_of_le a h, BitVec.msb_eq_decide]
  simp

end

/-- What rd reads after an instruction that writes it and advances. -/
theorem exec_readReg_of_writeAndGo (s : State) {rd : Reg} (hrd : rd ≠ 0) {i : Instr} {v : Word}
    (h : exec i s = writeAndGo rd v s.nextPc s) : ∃ t, exec i s = .next t ∧ t.readReg rd = v := by
  obtain ⟨t, ht, hw⟩ := exec_effect_of_writeAndGo h
  exact ⟨t, ht, hw.readReg_self hrd⟩

/-- Settles O31: no place shifts nothing, and sixteen or more leave zeros or the sign. -/
theorem shiftAmountCorners : Obligations.ShiftAmountCorners := by
  intro s rd rs1 rs2 hrd
  have sll := exec_readReg_of_writeAndGo s hrd (i := .sll rd rs1 rs2) rfl
  have srl := exec_readReg_of_writeAndGo s hrd (i := .srl rd rs1 rs2) rfl
  have sra := exec_readReg_of_writeAndGo s hrd (i := .sra rd rs1 rs2) rfl
  simp only [← shiftAmount_eq, List.forall_mem_cons, List.not_mem_nil, false_implies, implies_true, and_true]
  refine ⟨fun h0 => ?_, fun h16 => ?_⟩
  · rw [h0] at sll srl sra
    rw [shiftLeft, BitVec.shiftLeft_zero] at sll
    rw [shiftRightLogical, BitVec.ushiftRight_zero] at srl
    rw [shiftRightArith, BitVec.sshiftRight_zero] at sra
    exact ⟨sll, srl, sra⟩
  · rw [shiftLeft_of_le h16] at sll
    rw [shiftRightLogical_of_le h16] at srl
    rw [shiftRightArith_of_le h16] at sra
    exact ⟨⟨sll, srl⟩, sra⟩

end Sys2Proof.Machine

/-! PROOFS for 41_load_store.md and 20_memory.md sections 2 and 5: the loaded values as numbers, what a store writes, and what a load
reads after it. -/

namespace Sys2Proof.Machine

/-! ### Loaded and stored values as numbers (R99 to R103) -/

section
variable (b : Byte) (v : Word)

/-- The sign-extended byte as a number (R99). -/
theorem sext8_eq : sext8 b = BitVec.ofNat 16 (if b.toNat < 0x80 then b.toNat else 0xFF00 + b.toNat) := by
  apply BitVec.eq_of_toInt_eq
  rw [sext8_toInt, BitVec.toInt_eq_toNat_cond, BitVec.toNat_ofNat]
  split <;> split <;> omega

/-- The zero-extended byte as a number (R100). -/
theorem zext8_eq : zext8 b = BitVec.ofNat 16 b.toNat :=
  BitVec.eq_of_toNat_eq (by simp [zext8])

/-- The low byte of a stored register (R102, R103). -/
theorem lowByte_eq : v.setWidth 8 = BitVec.ofNat 8 (v.toNat % 256) :=
  BitVec.eq_of_toNat_eq (by simp)

/-- The high byte of a stored register (R103). -/
theorem highByte_eq : v.extractLsb' 8 8 = BitVec.ofNat 8 (v.toNat / 256) :=
  BitVec.eq_of_toNat_eq (by simp [BitVec.extractLsb'_toNat, Nat.shiftRight_eq_div_pow])

theorem lowByte_toNat : (v.setWidth 8).toNat = v.toNat % 256 := by simp

theorem highByte_toNat : (v.extractLsb' 8 8).toNat = v.toNat / 256 := by
  simp only [BitVec.extractLsb'_toNat, Nat.shiftRight_eq_div_pow]
  omega

/-- A word is its high byte above its low byte. -/
theorem highByte_append_lowByte : v.extractLsb' 8 8 ++ v.setWidth 8 = v := by
  apply BitVec.eq_of_toNat_eq
  rw [toNat_append_eq, highByte_toNat, lowByte_toNat]
  omega

/-- The loaded word as a number of its two bytes (R101). -/
theorem readWord_eq (s : State) (a : Word) :
    s.readWord a =
      BitVec.ofNat 16 ((s.readByte (BitVec.ofNat 16 (a.toNat + 1))).toNat * 256 + (s.readByte a).toNat) := by
  rw [ofNat_toNat_add_one, ← readWord_toNat, BitVec.ofNat_toNat, BitVec.setWidth_eq]

end

/-! ### Loads (R99 to R101) -/

/-- Settles O35: the byte read at the effective address, extended. -/
theorem lbLbuResults : Obligations.LbLbuResults := by
  refine ⟨decodesFormatISigned rfl rfl fun _ _ _ => rfl, decodesFormatISigned rfl rfl fun _ _ _ => rfl,
    fun s rd rs1 imm => ?_⟩
  simp only [← sext8_eq, ← zext8_eq]
  exact ⟨exec_effect_of_writeAndGo rfl, exec_effect_of_writeAndGo rfl⟩

/-- Settles O36: the word read at the effective address. -/
theorem lwResult : Obligations.LwResult := by
  refine ⟨decodesFormatISigned rfl rfl fun _ _ _ => rfl, fun s rd rs1 imm => ?_⟩
  simp only [← readWord_eq]
  exact exec_effect_of_writeAndGo rfl

/-! ### Stores (R102, R103) -/

/-- Settles O37: the one byte a store ending writes, offers and lists. -/
theorem sbEffect : Obligations.SbEffect := by
  refine ⟨decodesFormatISigned rfl rfl fun _ _ _ => rfl, fun s rd rs1 imm => ?_⟩
  simp only [← lowByte_eq]
  exact goTo_byteWrite_effect _ _ s

/-- Settles O38: the two bytes a store ending writes, offers and lists, low byte first. -/
theorem swEffect : Obligations.SwEffect := by
  refine ⟨decodesFormatISigned rfl rfl fun _ _ _ => rfl, fun s rd rs1 imm => ?_⟩
  simp only [← lowByte_eq, ← highByte_eq, ofNat_toNat_add_one]
  exact goTo_wordWrite_effect _ _ s

/-! ### A load after stores (20_memory.md section 2, 41_load_store.md section 3) -/

/-- A stored word reads back, also where the second address wraps. -/
theorem readWord_wordWrite (s : State) (a v : Word) : (s.wordWrite a v).readWord a = v := by
  rw [State.readWord, State.readByte_wordWrite, State.readByte_wordWrite, if_neg (Word.add_one_ne a), if_pos rfl, if_pos rfl]
  exact highByte_append_lowByte v

section
variable {s : State} {rd rs1 : Reg} {imm : Word}

/-- A store moves no register, so a base and displacement give the same address after it. -/
theorem effectiveAddress_of_storeFrame {t : State} (h : StoreFrame s t) (rs1 : Reg) (imm : Word) :
    effectiveAddress t rs1 imm = effectiveAddress s rs1 imm := by
  rw [effectiveAddress, h.regs, effectiveAddress]

/-- What Lw puts into a register other than r0. -/
theorem execLw_readReg (s : State) (hrd : rd ≠ 0) (rs1 : Reg) (imm : Word) :
    ∃ t, exec (.lw rd rs1 imm) s = .next t ∧ t.readReg rd = s.readWord (effectiveAddress s rs1 imm) :=
  exec_readReg_of_writeAndGo s hrd rfl

/-- What Lbu puts into a register other than r0, as a number. -/
theorem execLbu_readReg (s : State) (hrd : rd ≠ 0) (rs1 : Reg) (imm : Word) :
    ∃ t, exec (.lbu rd rs1 imm) s = .next t ∧
      (t.readReg rd).toNat = (s.readByte (effectiveAddress s rs1 imm)).toNat := by
  obtain ⟨t, ht, hreg⟩ := exec_readReg_of_writeAndGo s hrd (i := .lbu rd rs1 imm) rfl
  have hfits : (s.readByte (effectiveAddress s rs1 imm)).toNat < 2 ^ 16 := by omega
  exact ⟨t, ht, by rw [hreg, zext8_eq, BitVec.toNat_ofNat, Nat.mod_eq_of_lt hfits]⟩

/-- The displacement one higher is the address one higher. -/
theorem effectiveAddress_add_one : effectiveAddress s rs1 (imm + 1#16) = effectiveAddress s rs1 imm + 1#16 :=
  (BitVec.add_assoc _ _ _).symm

end

/-- The bytes that read differently after Sb, and its frame. -/
theorem execSb_bytes (s : State) (rd rs1 : Reg) (imm : Word) :
    ∃ t, exec (.sb rd rs1 imm) s = .next t ∧ StoreFrame s t ∧
      ∀ a, t.readByte a = if a = effectiveAddress s rs1 imm then (s.readReg rd).setWidth 8 else s.readByte a := by
  obtain ⟨t, ht, hframe, hbytes, -⟩ := goTo_byteWrite_effect (effectiveAddress s rs1 imm) ((s.readReg rd).setWidth 8) s
  exact ⟨t, ht, hframe, hbytes⟩

/-- The bytes that read differently after Sw, and its frame. -/
theorem execSw_bytes (s : State) (rd rs1 : Reg) (imm : Word) :
    ∃ t, exec (.sw rd rs1 imm) s = .next t ∧ StoreFrame s t ∧
      t.readByte (effectiveAddress s rs1 imm) = (s.readReg rd).setWidth 8 ∧
      t.readByte (effectiveAddress s rs1 imm + 1#16) = (s.readReg rd).extractLsb' 8 8 := by
  obtain ⟨t, ht, hframe, hbytes, -⟩ := goTo_wordWrite_effect (effectiveAddress s rs1 imm) (s.readReg rd) s
  refine ⟨t, ht, hframe, ?_, ?_⟩
  · rw [hbytes, if_pos rfl]
  · rw [hbytes, if_neg (Word.add_one_ne _), if_pos rfl]

/-- Settles O39: the load reads at the address of the store, and finds the two bytes of the stored word there. -/
theorem swThenLwReturnsTheWord : Obligations.SwThenLwReturnsTheWord := by
  intro s rd rd' rs1 imm hrd
  obtain ⟨t, ht, hframe, hlow, hhigh⟩ := execSw_bytes s rd rs1 imm
  obtain ⟨u, hu, hreg⟩ := execLw_readReg t hrd rs1 imm
  refine ⟨t, u, ht, hu, ?_⟩
  rw [hreg, effectiveAddress_of_storeFrame hframe, State.readWord, hlow, hhigh]
  exact highByte_append_lowByte _

/-- Settles O40: bytes are loaded from a stored word and a word from stored bytes. -/
theorem mixedWidthViewIsConsistent : Obligations.MixedWidthViewIsConsistent := by
  intro s r1 r2 rd rs1 imm hrd
  constructor
  · obtain ⟨t, ht, hframe, hlow, hhigh⟩ := execSw_bytes s r1 rs1 imm
    obtain ⟨u, hu, hlo⟩ := execLbu_readReg t hrd rs1 imm
    obtain ⟨v, hv, hhi⟩ := execLbu_readReg t hrd rs1 (imm + 1#16)
    refine ⟨t, u, v, ht, hu, hv, ?_, ?_⟩
    · rw [hlo, effectiveAddress_of_storeFrame hframe, hlow, lowByte_toNat]
    · rw [hhi, effectiveAddress_of_storeFrame hframe, effectiveAddress_add_one, hhigh, highByte_toNat]
  · obtain ⟨t, ht, hft, hbt⟩ := execSb_bytes s r1 rs1 imm
    obtain ⟨u, hu, hfu, hbu⟩ := execSb_bytes t r2 rs1 (imm + 1#16)
    obtain ⟨v, hv, hreg⟩ := execLw_readReg u hrd rs1 imm
    refine ⟨t, u, v, ht, hu, hv, ?_⟩
    have hea : effectiveAddress u rs1 imm = effectiveAddress s rs1 imm := by
      rw [effectiveAddress_of_storeFrame hfu, effectiveAddress_of_storeFrame hft]
    have hea' : effectiveAddress t rs1 (imm + 1#16) = effectiveAddress s rs1 imm + 1#16 := by
      rw [effectiveAddress_of_storeFrame hft, effectiveAddress_add_one]
    rw [hreg, readWord_toNat, hea, hbu, hea', if_pos rfl, hbu, hea', if_neg (Word.add_one_ne _).symm, hbt, if_pos rfl,
      hft.regs, lowByte_toNat, lowByte_toNat]

/-! ### A store repeated (20_memory.md section 5) -/

/-- Writing the two bytes again changes no memory in canonical form. -/
theorem Memory.put_put_again (m : Memory) (hm : m.wf = true) (a b : Word) (v w : Byte) :
    (((m.put a.toNat v).put b.toNat w).put a.toNat v).put b.toNat w = (m.put a.toNat v).put b.toNat w := by
  have hwf (m : Memory) (h : m.wf = true) := Memory.wf_put _ b w (Memory.wf_put m a v h)
  refine Memory.ext_of_wf _ _ (hwf _ (hwf m hm)) (hwf m hm) fun k => ?_
  simp only [Memory.get_put]
  split_ifs <;> rfl

/-- Writing one byte again changes no memory in canonical form. -/
theorem Memory.put_again (m : Memory) (hm : m.wf = true) (a : Word) (v : Byte) :
    (m.put a.toNat v).put a.toNat v = m.put a.toNat v := by
  have hput := Memory.wf_put m a v hm
  refine Memory.ext_of_wf _ _ (Memory.wf_put _ a v hput) hput fun k => ?_
  simp only [Memory.get_put]
  split <;> rfl

/-- Changes of cells commute if they do so on one cell. -/
theorem DisplayGrid.modifyCell_comm (g : DisplayGrid) (x y x' y' : Nat) {f f' : DisplayCell → DisplayCell}
    (h : f ∘ f' = f' ∘ f) : (g.modifyCell x y f).modifyCell x' y' f' = (g.modifyCell x' y' f').modifyCell x y f := by
  unfold DisplayGrid.modifyCell
  by_cases hy : y = y'
  · subst hy
    rw [List.modify_modify_eq, List.modify_modify_eq]
    congr 1
    funext row
    by_cases hx : x = x'
    · subst hx
      simp only [Function.comp_apply, List.modify_modify_eq, h]
    · exact List.modify_modify_ne f f' row hx
  · exact List.modify_modify_ne _ _ g hy

section
variable (p : Platform) (a : Word) (d d' : Byte) (g : DisplayGrid)

/-- A byte offered again changes nothing. -/
theorem Platform.offer_again : p.offer a d (p.offer a d g) = p.offer a d g := by
  by_cases hw : p.inWindow a = true
  · rw [p.offer_of_inWindow a d _ hw, p.offer_of_inWindow a d _ hw, DisplayGrid.modifyCell_modifyCell]
    split <;> rfl
  · simp only [Platform.offer, hw, if_false, Bool.false_eq_true]

/-- Bytes offered at neighbouring addresses commute: one sets the character and the other the colours. -/
theorem Platform.offer_comm_of_next :
    p.offer (a + 1#16) d' (p.offer a d g) = p.offer a d (p.offer (a + 1#16) d' g) := by
  by_cases hw : p.inWindow a = true
  · by_cases hw' : p.inWindow (a + 1#16) = true
    · simp only [p.offer_of_inWindow _ _ _ hw, p.offer_of_inWindow _ _ _ hw']
      refine DisplayGrid.modifyCell_comm g _ _ _ _ ?_
      simp only [Platform.inWindow, Bool.and_eq_true, decide_eq_true_eq] at hw hw'
      have hnext : (a + 1#16).toNat = (a.toNat + 1) % 65536 := BitVec.toNat_add a 1#16
      by_cases heven : (a.toNat - p.displayBase.toNat) % 2 = 0
      · rw [if_pos heven, if_neg (by omega)]
        rfl
      · rw [if_neg heven, if_pos (by omega)]
        rfl
    · simp only [p.offer_of_not_inWindow (a + 1#16) _ _ (Bool.not_eq_true _ ▸ hw')]
  · simp only [p.offer_of_not_inWindow a _ _ (Bool.not_eq_true _ ▸ hw)]

/-- The two bytes of a word offered again change nothing. -/
theorem Platform.offer_offer_again :
    p.offer (a + 1#16) d' (p.offer a d (p.offer (a + 1#16) d' (p.offer a d g))) =
      p.offer (a + 1#16) d' (p.offer a d g) := by
  rw [← p.offer_comm_of_next, p.offer_again, p.offer_again]

end

/-- Settles O41: the second store writes the same bytes at the same addresses, so it finds memory and display as it would leave them. -/
theorem repeatedStoreChangesNothing : Obligations.RepeatedStoreChangesNothing := by
  intro s rd rs1 imm hwf i hi
  simp only [List.mem_cons, List.not_mem_nil, or_false] at hi
  obtain rfl | rfl := hi
  · exact ⟨_, _, rfl, rfl, s.mem.put_again hwf _ _, s.platform.offer_again _ _ _⟩
  · exact ⟨_, _, rfl, rfl, s.mem.put_put_again hwf _ _ _ _, s.platform.offer_offer_again _ _ _ _⟩

end Sys2Proof.Machine

/-! PROOFS for 60_exceptions.md sections 3, 4 and 6 and 20_memory.md section 7: the display cell a stored byte drives, the retire record,
the next fetch and the end of a run. -/

namespace Sys2Proof.Machine

/-! ### The display controller (R125 to R128) -/

/-- The addresses of the window as one range of integers (R125). -/
theorem Platform.inWindow_iff (p : Platform) (a : Word) :
    p.inWindow a = true ↔
      p.displayBase.toNat ≤ a.toNat ∧ a.toNat < p.displayBase.toNat + 2 * p.displayW * p.displayH := by
  simp only [Platform.inWindow, Bool.and_eq_true, decide_eq_true_eq]
  omega

/-- Every cell after an offered byte: the addressed one is changed by the parity of the offset, any other is as before (R126 to R128). -/
theorem Platform.cell_offer (p : Platform) (a : Word) (d : Byte) (g : DisplayGrid) (x y : Nat) :
    (p.offer a d g).cell x y =
      if p.inWindow a = true ∧ x = (a.toNat - p.displayBase.toNat) / 2 % p.displayW ∧
          y = (a.toNat - p.displayBase.toNat) / 2 / p.displayW then
        (g.cell x y).map
          (if (a.toNat - p.displayBase.toNat) % 2 = 0 then DisplayCell.setCharacter d else DisplayCell.setAttribute d)
      else g.cell x y := by
  by_cases hw : p.inWindow a = true
  · rw [p.offer_of_inWindow a d g hw, DisplayGrid.cell_modifyCell]
    simp only [hw, true_and]
  · rw [p.offer_of_not_inWindow a d g (Bool.not_eq_true _ ▸ hw)]
    simp only [hw, false_and, if_false, Bool.false_eq_true]

/-- The colours byte as numbers: background high nibble, foreground low nibble (R127). -/
theorem DisplayCell.setAttribute_eq (d : Byte) (c : DisplayCell) :
    c.setAttribute d = { c with background := BitVec.ofNat 4 (d.toNat / 16), foreground := BitVec.ofNat 4 (d.toNat % 16) } := by
  have hback : d.extractLsb' 4 4 = BitVec.ofNat 4 (d.toNat / 16) :=
    BitVec.eq_of_toNat_eq (by simp [BitVec.extractLsb'_toNat, Nat.shiftRight_eq_div_pow])
  have hfore : d.extractLsb' 0 4 = BitVec.ofNat 4 (d.toNat % 16) :=
    BitVec.eq_of_toNat_eq (by simp [BitVec.extractLsb'_toNat])
  rw [DisplayCell.setAttribute, hback, hfore]

/-- Settles O48: Sb offers its one byte at its address. -/
theorem storedByteDrivesOneDisplayCell : Obligations.StoredByteDrivesOneDisplayCell := by
  intro s rd rs1 imm a base w h d
  refine ⟨_, rfl, fun x y => ?_⟩
  refine (s.platform.cell_offer _ _ s.display x y).trans ?_
  simp only [Platform.inWindow_iff, and_assoc]
  refine if_congr Iff.rfl (congrArg (Option.map · (s.display.cell x y)) (funext fun c => ?_)) rfl
  have hd : ((s.readReg rd).setWidth 8).toNat = d := lowByte_toNat _
  have hchar : (s.readReg rd).setWidth 8 = BitVec.ofNat 8 d := lowByte_eq _
  split
  · exact congrArg (DisplayCell.setCharacter · c) hchar
  · rw [DisplayCell.setAttribute_eq, hd]

/-- What legal parameters say of the window (R8, R125). -/
theorem Platform.window_of_wf {p : Platform} (hp : p.wf = true) :
    0 < p.displayW ∧ p.displayBase.toNat + 2 * p.displayW * p.displayH ≤ 65536 := by
  simp only [Platform.wf, Bool.and_eq_true, decide_eq_true_eq] at hp
  obtain ⟨⟨⟨⟨-, hW⟩, -⟩, hfits⟩, -⟩ := hp
  exact ⟨hW, hfits⟩

/-- In a window of legal dimensions the addressed cell is one of the grid's. -/
theorem Platform.window_cell_lt {p : Platform} (hp : p.wf = true) {a : Word} (hw : p.inWindow a = true) :
    (a.toNat - p.displayBase.toNat) / 2 % p.displayW < p.displayW ∧
      (a.toNat - p.displayBase.toNat) / 2 / p.displayW < p.displayH := by
  obtain ⟨hW, -⟩ := Platform.window_of_wf hp
  obtain ⟨hlow, hhigh⟩ := (p.inWindow_iff a).1 hw
  refine ⟨Nat.mod_lt _ hW, Nat.div_lt_of_lt_mul ?_⟩
  rw [Nat.mul_assoc] at hhigh
  omega

/-- Settles O49: the cell is there by the dimensions of the grid, and an even offset selects the character. -/
theorem evenOffsetWritesTheCharacterOnly : Obligations.EvenOffsetWritesTheCharacterOnly := by
  refine ⟨fun s a d hinv => ?_, fun s rd rs1 imm => ⟨⟨_, rfl, rfl⟩, ⟨_, rfl, rfl⟩⟩⟩
  intro off x y hw heven
  obtain ⟨hx, hy⟩ := Platform.window_cell_lt hinv.platform hw
  obtain ⟨c, hc⟩ := DisplayGrid.cell_isSome _ _ x y _ hinv.display hx hy
  refine ⟨hx, hy, c, hc, ?_⟩
  rw [State.byteWrite_display, Platform.cell_offer, if_pos ⟨hw, rfl, rfl⟩, hc, if_pos heven]
  rfl

/-- The address after an even offset of a window in the address space is in the window, one offset further. -/
theorem Platform.inWindow_next {p : Platform} (hp : p.wf = true) {a : Word} (hw : p.inWindow a = true)
    (heven : (a.toNat - p.displayBase.toNat) % 2 = 0) :
    p.inWindow (a + 1#16) = true ∧
      (a + 1#16).toNat - p.displayBase.toNat = a.toNat - p.displayBase.toNat + 1 := by
  obtain ⟨-, hfits⟩ := Platform.window_of_wf hp
  have hnext : (a + 1#16).toNat = (a.toNat + 1) % 65536 := BitVec.toNat_add a 1#16
  rw [Platform.inWindow_iff] at hw ⊢
  rw [Nat.mul_assoc] at *
  omega

/-- Two bytes offered at an even offset and the next make one change of one cell (R126, R127). -/
theorem Platform.offer_offer_next {p : Platform} (hp : p.wf = true) {a : Word} (hw : p.inWindow a = true)
    (heven : (a.toNat - p.displayBase.toNat) % 2 = 0) (lo hi : Byte) (g : DisplayGrid) :
    p.offer (a + 1#16) hi (p.offer a lo g) =
      g.modifyCell ((a.toNat - p.displayBase.toNat) / 2 % p.displayW) ((a.toNat - p.displayBase.toNat) / 2 / p.displayW)
        (DisplayCell.setAttribute hi ∘ DisplayCell.setCharacter lo) := by
  obtain ⟨hw', hoff⟩ := Platform.inWindow_next hp hw heven
  have hcell : (a.toNat - p.displayBase.toNat + 1) / 2 = (a.toNat - p.displayBase.toNat) / 2 := by omega
  have hodd : ¬ (a.toNat - p.displayBase.toNat + 1) % 2 = 0 := by omega
  rw [p.offer_of_inWindow _ _ _ hw', p.offer_of_inWindow _ _ _ hw, hoff, hcell, if_pos heven, if_neg hodd,
    DisplayGrid.modifyCell_modifyCell]

/-- The cell a stored word makes, as numbers of the word (R126, R127). -/
theorem DisplayCell.setAttribute_setCharacter_eq (v : Word) (c : DisplayCell) :
    (c.setCharacter (v.setWidth 8)).setAttribute (v.extractLsb' 8 8) =
      { character := BitVec.ofNat 8 (v.toNat % 256)
        background := BitVec.ofNat 4 (v.toNat / 4096)
        foreground := BitVec.ofNat 4 (v.toNat / 256 % 16) } := by
  rw [DisplayCell.setAttribute_eq, highByte_toNat, lowByte_eq, Nat.div_div_eq_div_mul]
  rfl

/-- Settles O50: the two offered bytes address the same cell, one its character and the other its colours. -/
theorem swAtEvenWindowAddressWritesOneWholeCell : Obligations.SwAtEvenWindowAddressWritesOneWholeCell := by
  intro s rd rs1 imm hinv ea off cx cy v hw heven
  obtain ⟨hx, hy⟩ := Platform.window_cell_lt hinv.platform hw
  obtain ⟨c, hc⟩ := DisplayGrid.cell_isSome _ _ cx cy _ hinv.display hx hy
  have hdisplay : (s.wordWrite ea (s.readReg rd)).display = s.display.modifyCell cx cy _ :=
    Platform.offer_offer_next hinv.platform hw heven _ _ s.display
  refine ⟨_, rfl, ?_, fun x y hxy => ?_⟩
  · refine (congrArg (DisplayGrid.cell · cx cy) hdisplay).trans ?_
    rw [DisplayGrid.cell_modifyCell, if_pos ⟨rfl, rfl⟩, hc]
    exact congrArg some (DisplayCell.setAttribute_setCharacter_eq (s.readReg rd) c)
  · refine (congrArg (DisplayGrid.cell · x y) hdisplay).trans ?_
    rw [DisplayGrid.cell_modifyCell, if_neg hxy]

/-! ### The retire record (R124) -/

/-- The byte writes of an instruction in order, with the bytes before and after. -/
def storedBytes (s : State) : Instr → List MemWrite
  | .sb rd rs1 imm =>
    [⟨effectiveAddress s rs1 imm, s.readByte (effectiveAddress s rs1 imm), (s.readReg rd).setWidth 8⟩]
  | .sw rd rs1 imm =>
    [⟨effectiveAddress s rs1 imm, s.readByte (effectiveAddress s rs1 imm), (s.readReg rd).setWidth 8⟩,
     ⟨effectiveAddress s rs1 imm + 1#16, s.readByte (effectiveAddress s rs1 imm + 1#16),
      (s.readReg rd).extractLsb' 8 8⟩]
  | _ => []

theorem exec_memWrites {i : Instr} {s t : State} (h : exec i s = .next t) :
    t.memWrites = s.memWrites ++ storedBytes s i := by
  have unlisted (hb : i.mnemonic ≠ .sb) (hw : i.mnemonic ≠ .sw) : t.memWrites = s.memWrites ++ [] := by
    obtain ⟨u, hu, hno, -⟩ := exec_noStore i s hb hw
    obtain rfl : u = t := Host.Outcome.next.inj (hu.symm.trans h)
    rw [hno.memWrites, List.append_nil]
  cases i with
  | sb rd rs1 imm =>
    obtain rfl := Host.Outcome.next.inj h
    rfl
  | sw rd rs1 imm =>
    obtain ⟨u, hu, -, -, -, hlist⟩ := goTo_wordWrite_effect (effectiveAddress s rs1 imm) (s.readReg rd) s
    obtain rfl : u = t := Host.Outcome.next.inj (hu.symm.trans h)
    exact hlist
  | _ => exact unlisted nofun nofun

/-- A register change is determined by its register. -/
theorem eq_of_mem_regChanges {s t : State} {c : RegChange} (h : c ∈ regChanges s t) :
    c = ⟨c.reg, s.readReg c.reg, t.readReg c.reg⟩ := by
  obtain ⟨-, hbefore, hafter, -⟩ := (mem_regChanges s t c).1 h
  rw [← hbefore, ← hafter]

/-- No two register changes of a record are the same. -/
theorem nodup_regChanges (s t : State) : (regChanges s t).Nodup := by
  refine List.Nodup.filterMap (fun i j c hi hj => ?_) (by decide)
  have regOf {k : Reg}
      (hk : c ∈ if s.readReg k = t.readReg k then none else some (⟨k, s.readReg k, t.readReg k⟩ : RegChange)) :
      c.reg = k := by
    split at hk
    · cases hk
    · cases hk
      rfl
  exact (regOf hi).symm.trans (regOf hj)

/-- At most one register changes in an instruction: its destination (R25). -/
theorem length_regChanges_le_one {i : Instr} {s t : State} (h : exec i s = .next t) : (regChanges s t).length ≤ 1 := by
  obtain ⟨u, hu, hregs⟩ := onlyTheDestinationRegisterChanges i s
  obtain rfl : u = t := Host.Outcome.next.inj (hu.symm.trans h)
  have hdest (c : RegChange) (hc : c ∈ regChanges s u) : i.dest = some c.reg := by
    obtain ⟨-, hbefore, hafter, hne⟩ := (mem_regChanges s u c).1 hc
    by_contra hd
    exact hne (by rw [hbefore, hafter, hregs _ hd])
  have hnodup := nodup_regChanges s u
  cases hlist : regChanges s u with
  | nil => simp
  | cons c cs =>
    have honly : regChanges s u ⊆ [c] := by
      intro c' hc'
      have hc : c ∈ regChanges s u := by simp [hlist]
      have hreg : c'.reg = c.reg := Option.some.inj ((hdest c' hc').symm.trans (hdest c hc))
      rw [List.mem_singleton, eq_of_mem_regChanges hc', eq_of_mem_regChanges hc, hreg]
    rw [hlist] at hnodup honly
    exact (List.subperm_of_subset hnodup honly).length_le

/-- The register changes up to the end of the step are those of the instruction: r0 is in no list. -/
theorem regChanges_postStep (s u : State) : regChanges s u.postStep = regChanges s u := by
  simp [regChanges]

/-- Settles O51: the fields of the record made at the end of the step, of the instruction that ran from an empty write list. -/
theorem retireRecordFields : Obligations.RetireRecordFields := by
  intro s t hhost hstep
  obtain ⟨u, hu, rfl⟩ := step_cases_of_no_host hhost hstep
  have hregs : (retireRecord s u.postStep).regChanges = regChanges s u := regChanges_postStep s u
  refine ⟨_, rfl, rfl, rfl, (decode_toDecoded _ _).symm, ?_, ?_, exec_memWrites hu⟩ <;> rw [hregs]
  · simpa using mem_regChanges s u
  · exact length_regChanges_le_one (s := s.beginStep) hu

/-- The byte writes listed since `s`, the last to each address first, laid over the bytes of `s`, are the bytes of `t`. -/
def ReplaysBytes (s t : State) : Prop :=
  ∀ a, t.readByte a = ((t.memWrites.reverse.find? fun w => w.addr == a).map (·.after)).getD (s.readByte a)

theorem ReplaysBytes.byteWrite {s t : State} (h : ReplaysBytes s t) (a : Word) (d : Byte) : ReplaysBytes s (t.byteWrite a d) := by
  intro b
  rw [State.readByte_byteWrite, State.byteWrite_memWrites, List.reverse_append, List.reverse_singleton, List.singleton_append]
  by_cases hb : b = a
  · simp [hb]
  · rw [if_neg hb, List.find?_cons_of_neg (by simpa using Ne.symm hb)]
    exact h b

theorem exec_replaysBytes {i : Instr} {s t : State} (hs : s.memWrites = []) (h : exec i s = .next t) : ReplaysBytes s t := by
  obtain ⟨u, hu, hr⟩ := exec_induct (ReplaysBytes s) (fun i v u hu a => by simpa using hu a) (fun t u hu a => hu a)
    (fun a d u hu => hu.byteWrite a d) i s (fun a => by simp [hs])
  exact Host.Outcome.next.inj (hu.symm.trans h) ▸ hr

/-- The register changes of a record laid over the registers before are the registers after. -/
theorem readReg_eq_of_regChanges (s t : State) (r : Reg) :
    t.readReg r = (((regChanges s t).find? fun c => c.reg == r).map (·.after)).getD (s.readReg r) := by
  cases hfind : (regChanges s t).find? fun c => c.reg == r with
  | none =>
    simp only [Option.map_none, Option.getD_none]
    by_contra hne
    have hr : r ≠ 0 := fun h0 => hne (by rw [h0]; rfl)
    have hmem := (mem_regChanges s t ⟨r, s.readReg r, t.readReg r⟩).2 ⟨hr, rfl, rfl, Ne.symm hne⟩
    simpa using List.find?_eq_none.1 hfind _ hmem
  | some c =>
    obtain ⟨-, -, hafter, -⟩ := (mem_regChanges s t c).1 (List.mem_of_find?_eq_some hfind)
    have hreg : c.reg = r := by simpa using List.find?_some hfind
    exact (hreg ▸ hafter).symm

/-- Settles O52: the record lists the registers that changed and, in order, every byte written. -/
theorem retireRecordReplaysTheStep : Obligations.RetireRecordReplaysTheStep := by
  intro s t hhost hstep
  obtain ⟨u, hu, rfl⟩ := step_cases_of_no_host hhost hstep
  have hregs : (retireRecord s u.postStep).regChanges = regChanges s u := regChanges_postStep s u
  refine ⟨_, rfl, fun r => ?_, exec_replaysBytes rfl hu⟩
  rw [hregs, State.endStep_readReg]
  exact readReg_eq_of_regChanges s u r

/-! ### Fetch after a store (R52, R143) -/

/-- Settles O53: the step goes to the address of the stored word, and the end of the step writes no memory. -/
theorem nextFetchSeesTheStoredWord : Obligations.NextFetchSeesTheStoredWord := by
  intro s rd rs1 imm hhost hdec hea
  let u := (s.beginStep.wordWrite (effectiveAddress s rs1 imm) (s.readReg rd)).setPc s.nextPc
  have hexec : exec (decode s.platform.opcodeMap s.fetchWord) s.beginStep = .next u := by
    rw [hdec]
    rfl
  refine ⟨_, step_eq_endStep s u hhost hexec, s.nextPc_eq, ?_⟩
  have hpc : effectiveAddress s rs1 imm = s.nextPc := hea.trans s.nextPc_eq.symm
  calc (s.endStep u).fetchWord
      = (s.beginStep.wordWrite (effectiveAddress s rs1 imm) (s.readReg rd)).readWord s.nextPc := rfl
    _ = s.readReg rd := by rw [← hpc, readWord_wordWrite]

/-! ### The end of a run (R135) -/

/-- A taken branch to itself changes nothing. -/
theorem branchIf_zero {taken : Bool} (h : taken = true) (s : State) : branchIf taken 0#16 s = .next s := by
  rw [branchIf, if_pos h, relativeTarget, BitVec.add_zero]
  rfl

/-- The instruction of a finished program changes nothing. -/
theorem exec_of_finished {s : State} (h : s.finished = true) :
    exec (decode s.platform.opcodeMap s.fetchWord) s.beginStep = .next s.beginStep := by
  unfold State.finished at h
  split at h <;> simp only [Bool.and_eq_true, beq_iff_eq, decide_eq_true_eq, Bool.false_eq_true] at h <;>
    rename_i hdec <;> rw [hdec] <;> obtain ⟨rfl, hc⟩ := h
  · subst hc
    exact congrArg (fun t => Host.Outcome.next (s.beginStep.setPc t)) (BitVec.add_zero s.pc)
  · exact branchIf_zero (beq_iff_eq.2 hc) _
  · exact branchIf_zero hc _
  · exact branchIf_zero ((lessSigned_iff _ _).2 hc) _
  · exact branchIf_zero ((not_lessSigned_iff _ _).2 hc) _
  · exact branchIf_zero ((lessUnsigned_iff _ _).2 hc) _
  · exact branchIf_zero ((not_lessUnsigned_iff _ _).2 hc) _

/-- A step of a finished program hands over a record of no change and leaves all else as it is. -/
theorem step_of_finished {s : State} (hinv : s.Inv) (hhost : s.host = []) (h : s.finished = true) :
    step s = .next { s with
      retire := some ⟨s.pc, s.fetchWord, (decode s.platform.opcodeMap s.fetchWord).toDecoded, [], []⟩
      memWrites := [] } := by
  have hregs : s.regs.set 0 0#16 = s.regs := by
    rw [← hinv.zero]
    exact Vector.set_getElem_self _
  have hnone : regChanges s s.beginStep.postStep = [] := by simp [regChanges]
  have hrecord : retireRecord s s.beginStep.postStep =
      ⟨s.pc, s.fetchWord, (decode s.platform.opcodeMap s.fetchWord).toDecoded, [], []⟩ := by
    rw [retireRecord, hnone, decode_toDecoded]
    rfl
  rw [step_eq_endStep s s.beginStep hhost (exec_of_finished h), ← hrecord]
  simp only [State.endStep, State.postStep, State.beginStep, hregs]

/-- A state that a step leaves as it is stays so for any fuel. -/
theorem run_of_step_self {s : State} (h : step s = .next s) (fuel : Nat) : run fuel s = .next s := by
  induction fuel with
  | zero => rfl
  | succ fuel ih => rw [run, h]; exact ih

/-- Settles O54: after one step the record is the one that every further step hands over again. -/
theorem finishedProgramRepeatsItself : Obligations.FinishedProgramRepeatsItself := by
  intro s hinv hhost hfin
  have hstep := step_of_finished hinv hhost hfin
  refine ⟨_, hstep, rfl, run_of_step_self ?_⟩
  exact step_of_finished (everyStepKeepsTheInvariant s _ hinv hstep) hhost hfin

end Sys2Proof.Machine
